-- ==== Sys2Proof/Word.lean ====
section
/-! DEFINITION. The widths of the core: operand and result bytes, command words, response words
(`00_scope.md` R5). -/

namespace Sys2Proof

/-- An operand field, a result byte or a byte of the matrix buffer: 8 bits, unsigned (R5, R6). -/
abbrev Byte := BitVec 8

/-- A command word, 32 bits (R52). -/
abbrev CmdWord := BitVec 32

/-- A response word, 16 bits (R54). -/
abbrev RspWord := BitVec 16

end Sys2Proof
end

