-- ==== Sys2Proof/Syntax.lean ====
section
/-! DEFINITION. The eleven commands, one constructor per row of the opcode table (`30_encoding.md` R55), and the
registers RDCFG can name. Operands are the bytes `a` and `b` of the command word in the order of R53. -/

namespace Sys2Proof

/-- One command with its operands (R55). -/
inductive Instr where
  /-- INIT n: construct the field GF(2^n) (R70). -/
  | init (n : Byte)
  /-- VALIDATE a: the range guard as a command (R73). -/
  | validate (a : Byte)
  /-- ADD a, b: field addition (R80). -/
  | add (a b : Byte)
  /-- NEG a: additive inverse (R81). -/
  | neg (a : Byte)
  /-- SUB a, b: field subtraction (R82). -/
  | sub (a b : Byte)
  /-- MUL a, b: field multiplication (R90). -/
  | mul (a b : Byte)
  /-- DIV a, b: `a` divided by `b` (R102). -/
  | div (a b : Byte)
  /-- INVERT a: multiplicative inverse (R101). -/
  | invert (a : Byte)
  /-- TOMATRIX a: build the binary matrix of `a` (R110). -/
  | toMatrix (a : Byte)
  /-- MGET r, c: read one byte of the matrix (R112). -/
  | mget (r c : Byte)
  /-- RDCFG sel: read a state register (R74). -/
  | rdcfg (sel : Byte)
deriving DecidableEq, Repr

/-- The registers RDCFG can name, in the order of their selector numbers 0 to 6 (R13, R20, R74). -/
inductive Selector where
  | exp | order | divisor | status | mrows | mcols | morder
deriving DecidableEq, Repr

end Sys2Proof
end

