-- ==== Sys2Proof/WellFormed.lean ====
section
/-! DEFINITION. Which commands are well formed: the opcode table's constraints that the types do not already say.
The fields are bytes by type; the one constraint left is RDCFG's selector, `a <= 6` (R74, R56). -/

namespace Sys2Proof

/-- A selector byte that names a register (R74): 0 to 6. -/
def selectorNamed (sel : Byte) : Bool := sel.toNat ≤ 6

/-- The opcode table's constraints. A command that is not well formed still decodes (R56: it "matches RDCFG's row but
names no register") and is answered with `IllegalCommandError`. -/
def Instr.wellFormed : Instr → Bool
  | .init _ => true
  | .validate _ => true
  | .add _ _ => true
  | .neg _ => true
  | .sub _ _ => true
  | .mul _ _ => true
  | .div _ _ => true
  | .invert _ => true
  | .toMatrix _ => true
  | .mget _ _ => true
  | .rdcfg sel => selectorNamed sel

end Sys2Proof
end

