-- ==== Sys2Proof/Decode.lean ====
section
/-! DEFINITION. The command word's fields (`30_encoding.md` R52), the decoder (R55, R56, R62) and the encoder. Decoding is
total and looks at the word alone. -/

namespace Sys2Proof

/-- Why a word is illegal (R56 (a), (b), (c)). -/
inductive DecodeError where
  /-- (a) `op = 0x00` or `op >= 0x0C`. -/
  | unassignedOpcode (op : Byte)
  /-- (b) `rsv != 0`. -/
  | reservedNotZero (rsv : Byte)
  /-- (c) a command that takes one operand, with `b != 0`. -/
  | secondOperandNotZero (b : Byte)
deriving DecidableEq, Repr

/-- `op = cmd[31:24]` (R52). -/
def opField (w : CmdWord) : Byte := BitVec.ofNat 8 (w.toNat / 2 ^ 24)

/-- `rsv = cmd[23:16]` (R52). -/
def rsvField (w : CmdWord) : Byte := BitVec.ofNat 8 (w.toNat / 2 ^ 16)

/-- `b = cmd[15:8]` (R52). -/
def bField (w : CmdWord) : Byte := BitVec.ofNat 8 (w.toNat / 2 ^ 8)

/-- `a = cmd[7:0]` (R52). -/
def aField (w : CmdWord) : Byte := BitVec.ofNat 8 w.toNat

/-- `cmd = op * 2^24 + rsv * 2^16 + b * 2^8 + a` (R52). -/
def packWord (op rsv b a : Byte) : CmdWord :=
  BitVec.ofNat 32 (op.toNat * 2 ^ 24 + rsv.toNat * 2 ^ 16 + b.toNat * 2 ^ 8 + a.toNat)

/-- A command that takes one operand: `b` must be 0 (R52, R56 (c)). -/
def oneOperand (w : CmdWord) (build : Byte → Instr) : Except DecodeError Instr :=
  if bField w = 0 then .ok (build (aField w)) else .error (.secondOperandNotZero (bField w))

/-- A command that takes two operands (R52). -/
def twoOperands (w : CmdWord) (build : Byte → Byte → Instr) : Except DecodeError Instr :=
  .ok (build (aField w) (bField w))

/-- The command a word is, or why it is illegal (R55, R56, R62). -/
def decode (w : CmdWord) : Except DecodeError Instr :=
  if rsvField w ≠ 0 then .error (.reservedNotZero (rsvField w))
  else
    match (opField w).toNat with
    | 0x01 => oneOperand w .init
    | 0x02 => oneOperand w .validate
    | 0x03 => twoOperands w .add
    | 0x04 => oneOperand w .neg
    | 0x05 => twoOperands w .sub
    | 0x06 => twoOperands w .mul
    | 0x07 => twoOperands w .div
    | 0x08 => oneOperand w .invert
    | 0x09 => oneOperand w .toMatrix
    | 0x0A => twoOperands w .mget
    | 0x0B => oneOperand w .rdcfg
    | _ => .error (.unassignedOpcode (opField w))

/-- The opcode of a command (R55). -/
def Instr.opcode : Instr → Byte
  | .init _ => 0x01
  | .validate _ => 0x02
  | .add _ _ => 0x03
  | .neg _ => 0x04
  | .sub _ _ => 0x05
  | .mul _ _ => 0x06
  | .div _ _ => 0x07
  | .invert _ => 0x08
  | .toMatrix _ => 0x09
  | .mget _ _ => 0x0A
  | .rdcfg _ => 0x0B

/-- The `a` field of a command (R53). -/
def Instr.aOperand : Instr → Byte
  | .init n => n
  | .validate a => a
  | .add a _ => a
  | .neg a => a
  | .sub a _ => a
  | .mul a _ => a
  | .div a _ => a
  | .invert a => a
  | .toMatrix a => a
  | .mget r _ => r
  | .rdcfg sel => sel

/-- The `b` field of a command: 0 for commands that take one operand (R52, R53). -/
def Instr.bOperand : Instr → Byte
  | .init _ => 0
  | .validate _ => 0
  | .add _ b => b
  | .neg _ => 0
  | .sub _ b => b
  | .mul _ b => b
  | .div _ b => b
  | .invert _ => 0
  | .toMatrix _ => 0
  | .mget _ c => c
  | .rdcfg _ => 0

/-- The command word of a command: `{op, 0, b, a}` (R52). -/
def encode (i : Instr) : CmdWord := packWord i.opcode 0 i.bOperand i.aOperand

/-- One row of R55's table of masks and matches. -/
structure OpcodeRow where
  mask : CmdWord
  pattern : CmdWord
deriving DecidableEq, Repr

/-- The masks and matches of R55, in the table's order. The decoder does not use them: they are the spec's second
description of the same encodings, and a statement says that the two agree. -/
def opcodeRows : List OpcodeRow :=
  [⟨0xFFFFFF00, 0x01000000⟩, ⟨0xFFFFFF00, 0x02000000⟩, ⟨0xFFFF0000, 0x03000000⟩, ⟨0xFFFFFF00, 0x04000000⟩,
   ⟨0xFFFF0000, 0x05000000⟩, ⟨0xFFFF0000, 0x06000000⟩, ⟨0xFFFF0000, 0x07000000⟩, ⟨0xFFFFFF00, 0x08000000⟩,
   ⟨0xFFFFFF00, 0x09000000⟩, ⟨0xFFFF0000, 0x0A000000⟩, ⟨0xFFFFFF00, 0x0B000000⟩]

/-- A word selects a row when `(w & mask) = match` (R55). -/
def OpcodeRow.selects (row : OpcodeRow) (w : CmdWord) : Bool := w &&& row.mask = row.pattern

/-- The host's view of the decoder: the command whose low `nbits` bits are `w`, every bit above them 0. -/
def decodeTableWord (nbits w : Nat) : Option Instr :=
  match decode (BitVec.ofNat 32 (w % 2 ^ nbits)) with
  | .ok i => some i
  | .error _ => none

end Sys2Proof
end

