-- ==== Sys2Proof/Config.lean ====
section
/-! DEFINITION. What the spec leaves free. The core has no run-time parameter left open (`00_scope.md` R5), so the one
entry is the value of a byte of storage that holds no byte of any matrix. -/

namespace Sys2Proof

/-- The value of byte `MAT[addr]` where the buffer holds no byte: the spec says such bytes "have no specified value"
(R24, R44) and treats them as `any value` (U11). A FREE VALUE: no body, so nothing can be proved of it. No command that
starts in a state meeting the model's invariant reads it (log entry 6). -/
opaque Config.unspecifiedByte : Nat → Byte

end Sys2Proof
end

