-- ==== Sys2Proof/Machine/State.lean ====
section
/-! DEFINITION. The state of the core (`10_state.md`), what its two ports hold, the reasons a step can stop, and the
state after reset (R28). -/

namespace Sys2Proof.Machine

/-- Storage order of a matrix (R30); as the 1-bit register `MORDER`, 0 is RowMajor and 1 is ColumnMajor (R20). -/
inductive StorageOrder where
  | rowMajor
  | columnMajor
deriving DecidableEq, Repr

/-- The errors (R120). An error is a response of the core, never a stop of the machine (R121). -/
inductive Err where
  /-- code 1: INIT with n outside 1..7. -/
  | invalidExponent
  /-- code 2: an operand or result outside `[0, ORDER)`. -/
  | invalidNumber
  /-- code 3: inverse of zero, or no inverse found. -/
  | noInverse
  /-- code 4: a coordinate outside the matrix. -/
  | outOfBounds
  /-- code 5: reserved, never raised (R123). -/
  | allocation
  /-- code 6: no such command, or no such RDCFG selector (R125). -/
  | illegalCommand
  /-- code 7: the field or the matrix has not been constructed (R124). -/
  | notConstructed
deriving DecidableEq, Repr

/-- What the host does next at the core's ports (R8): present a command word, or assert reset, with a command in
progress or with none (R140). -/
inductive HostEvent where
  | command (w : CmdWord)
  | reset (inFlight : Option CmdWord)
deriving DecidableEq, Repr

/-- Byte memory as plain data: the bytes that hold a value, by linear index, indices strictly rising
(`Memory.wf` in Machine/Memory.lean). An unlisted index holds no value. -/
abbrev Memory := List Host.Cell

/-- Everything the core keeps between commands (R13, R20), and its two ports as lists. -/
structure State where
  /-- `CFGV`: a field has been constructed (R14). -/
  cfgv : Bool
  /-- `EXP`, 3 bits (R15). -/
  exp : BitVec 3
  /-- `ORDER`, 8 bits (R16). -/
  order : BitVec 8
  /-- `DIVISOR`, 8 bits (R17). -/
  divisor : BitVec 8
  /-- `MATV`: a matrix has been produced (R21). -/
  matv : Bool
  /-- `MROWS`, 3 bits (R22). -/
  mrows : BitVec 3
  /-- `MCOLS`, 3 bits (R22). -/
  mcols : BitVec 3
  /-- `MORDER`, 1 bit (R23). -/
  morder : StorageOrder
  /-- `MAT[0..48]` (R24). -/
  mat : Memory
  /-- Command port: what the host presents, first the next (R11, R50). Empty: the port is idle. -/
  host : List HostEvent
  /-- Response port: the responses delivered, oldest first (R50, R147). -/
  rsps : List RspWord
deriving DecidableEq, Repr

/-- Why the machine stops with a fault. The spec's own errors are responses (R121), so this holds one reason only. -/
inductive Fault where
  /-- Raised by `memRead` for an index of 49 or more, which the 49-byte buffer does not have (R24, R44). Safe: the machine
  stops where the spec has no byte. No state reaches it: MGET checks the coordinates first, and the shape registers are
  3 bits wide (log entry 11). -/
  | outsideBuffer (addr : Nat)
deriving DecidableEq, Repr

/-- Why a command has no meaning in this model. -/
inductive Refusal where
  /-- Raised by a refused arm of `exec`: a command not modelled yet. Safe. No arm raises it. -/
  | notModelled (mnemonic : String)
  /-- Raised by TOMATRIX when its calls of the Matrix container take a form the spec gives no meaning (U5, U6). Safe. Only
  in states with `CFGV = 1` and `EXP = 0`, which no run reaches: there it would call `init(0, 0)` (log entry 12). -/
  | containerUnstated
deriving DecidableEq, Repr

/-- The state after reset (R28): `CFGV = 0`, `MATV = 0`, both ports idle. DESIGN CHOICE (unsafe; log entries 4, 5): the
registers R28 leaves unspecified hold 0, which no response shows while their valid bit is 0. No byte of the buffer holds
a value (log entry 6). -/
def State.reset : State where
  cfgv := false
  exp := 0
  order := 0
  divisor := 0
  matv := false
  mrows := 0
  mcols := 0
  morder := .rowMajor
  mat := []
  host := []
  rsps := []

end Sys2Proof.Machine
end

