-- ==== Sys2Proof/Machine/Flags.lean ====
section
/-! DEFINITION. The core has no flags, condition codes or sticky error bits (`10_state.md` R12). What it has in their place
is the read-only view STATUS of its two valid bits (R26). -/

namespace Sys2Proof.Machine

/-- STATUS = `{0b000000, MATV, CFGV}` (R26, R74). -/
def statusView (s : State) : Nat := s.matv.toNat * 2 + s.cfgv.toNat

end Sys2Proof.Machine
end

