-- ==== Sys2Proof/Machine/FieldMath.lean ====
section
/-! DEFINITION. The pure functions of the field (`40_config_validate.md` R72, `42_mul.md` R91 to R94, `43_div_invert.md`
R100), on natural numbers as the spec states them (`00_scope.md` R6). They read `EXP`, `ORDER`, `DIVISOR` and nothing
else of the state (R7). -/

namespace Sys2Proof.Machine

/-- The three numbers of a field (R13). -/
structure FieldCfg where
  exp : Nat
  order : Nat
  divisor : Nat
deriving DecidableEq, Repr

/-- `NMIN` (R5). -/
def nMin : Nat := 1

/-- `NMAX` (R5). -/
def nMax : Nat := 7

/-- `MULBITS`: the multiplier scans positions 7 down to 0 (R5, R92). -/
def mulBits : Nat := 8

/-- `DIVTAB` (R17, R70). Outside 1..7 it is never read: INIT checks n first. -/
def divTab : Nat → Nat
  | 1 => 3
  | 2 => 7
  | 3 => 11
  | 4 => 19
  | 5 => 37
  | 6 => 67
  | 7 => 131
  | _ => 0

/-- The numbers INIT n gives the field (R70). -/
def fieldOf (n : Nat) : FieldCfg := ⟨n, 1 <<< n, divTab n⟩

/-- `bit(v, i)` (R6). -/
def bitAt (v i : Nat) : Nat := (v >>> i) % 2

/-- `validate(v)` (R72). -/
def validate (F : FieldCfg) (v : Nat) : Except Err Nat :=
  if v < F.order then .ok v else .error .invalidNumber

/-- `countBits(v)`: position of the highest set bit + 1 (R91); 0 at 0 (D19). -/
def countBits (v : Nat) : Nat := if v = 0 then 0 else Nat.log2 v + 1

/-- The loop of `clmul` over positions `i-1` down to 0 (R92). -/
def clmulLoop (a b : Nat) : Nat → Nat → Nat
  | 0, acc => acc
  | i + 1, acc => clmulLoop a b i (if bitAt b i = 1 then acc ^^^ (a <<< i) else acc)

/-- `clmul(a, b)`, the carry-less product (R92). The 16-bit accumulator is a natural number here: for bytes it stays
below 2^16 (log entry 13). -/
def clmul (a b : Nat) : Nat := clmulLoop a b mulBits 0

/-- One iteration of the reduction loop (R93). -/
def reduceStep (F : FieldCfg) (acc : Nat) : Nat := acc ^^^ (F.divisor <<< (countBits acc - 1 - F.exp))

/-- The loop of `reduce`, at most `fuel` iterations (R93, R145; log entry 10). -/
def reduceLoop (F : FieldCfg) : Nat → Nat → Nat
  | 0, acc => acc
  | fuel + 1, acc => if F.order ≤ acc then reduceLoop F fuel (reduceStep F acc) else acc

/-- `reduce(acc)` (R93): each iteration shortens `acc`, so `countBits(acc)` iterations are enough. -/
def reduce (F : FieldCfg) (acc : Nat) : Nat := reduceLoop F (countBits acc) acc

/-- `fmul(x, y)` (R94), the n = 1 branch kept (D22). -/
def fmul (F : FieldCfg) (x y : Nat) : Except Err Nat := do
  let x ← validate F x
  let y ← validate F y
  let p := if F.exp = 1 then x * y else reduce F (clmul x y)
  validate F p

/-- The search of `finv` over a list of candidates (R100). -/
def finvSearch (F : FieldCfg) (x : Nat) : List Nat → Except Err Nat
  | [] => .error .noInverse
  | cand :: rest => do
    let p ← fmul F x cand
    if p = 1 then validate F cand else finvSearch F x rest

/-- `finv(x)` (R100): candidates ascending from 0 to `ORDER - 1` (D24). -/
def finv (F : FieldCfg) (x : Nat) : Except Err Nat :=
  if x = 0 then .error .noInverse else finvSearch F x (List.range F.order)

end Sys2Proof.Machine
end

