-- ==== Sys2Proof/Machine/Memory.lean ====
section
/-! DEFINITION. Byte memory (`20_memory.md` R40 to R44): the canonical form, the read and the write of one byte, and the
write of a run of bytes. -/

namespace Sys2Proof.Machine

/-- `MATCAP`: the buffer has 49 bytes, indices 0 to 48 (R5, R24). -/
def matCap : Nat := 49

/-- The indices rise strictly, start at `lo` or above, and lie in the buffer. -/
def Memory.wfFrom : Nat → Memory → Bool
  | _, [] => true
  | lo, (a, _) :: m => lo ≤ a && a < matCap && Memory.wfFrom (a + 1) m

/-- The canonical form: indices strictly rising, all below 49. An unlisted index holds no value, so no entry equals
what an unlisted index reads as. -/
def Memory.wf (m : Memory) : Bool := Memory.wfFrom 0 m

/-- The value byte `x` holds, if it holds one. -/
def Memory.read? : Memory → Nat → Option Byte
  | [], _ => none
  | (a, v) :: m, x => if x = a then some v else Memory.read? m x

/-- What an unlisted byte reads as: a free value (log entry 6). -/
def Memory.unlisted (x : Nat) : Byte := Config.unspecifiedByte x

/-- `MemRead(x, 1)` (R7). -/
def Memory.read (m : Memory) (x : Nat) : Byte := (Memory.read? m x).getD (Memory.unlisted x)

/-- `MemWrite(x, 1, v)` (R7). -/
def Memory.write : Memory → Nat → Byte → Memory
  | [], x, v => [(x, v)]
  | (a, u) :: m, x, v =>
    if x < a then (x, v) :: (a, u) :: m
    else if x = a then (x, v) :: m
    else (a, u) :: Memory.write m x v

/-- `MAT[x .. x + len - 1] <- vs`, byte by byte. -/
def Memory.writeRun : Memory → Nat → List Byte → Memory
  | m, _, [] => m
  | m, x, v :: vs => Memory.writeRun (Memory.write m x v) (x + 1) vs

end Sys2Proof.Machine
end

