-- ==== Sys2Proof/Machine/Matrix.lean ====
section
/-! DEFINITION. The Matrix container (`20_memory.md` R30 to R35), which TOMATRIX fills and the buffer holds (R38). -/

namespace Sys2Proof.Machine

/-- A Matrix value: shape, storage order, and `rows * cols` bytes (R30). -/
structure MatrixVal where
  rows : Nat
  cols : Nat
  order : StorageOrder
  data : List Byte
deriving DecidableEq, Repr

/-- Why a container call gives no result. -/
inductive MatrixStop where
  /-- It raises this error (R33, R35). -/
  | raised (e : Err)
  /-- The spec gives the form no meaning and asks to refuse it (U5, U6). -/
  | noMeaning
deriving DecidableEq, Repr

/-- R30: both dimensions at least 1 and exactly `rows * cols` bytes. -/
def MatrixVal.valid (m : MatrixVal) : Bool :=
  1 ≤ m.rows && 1 ≤ m.cols && m.data.length = m.rows * m.cols

/-- The linear index of element (r, c) (R31; the ordering of slices is PRESUMED, log entry 14). -/
def matIdx : StorageOrder → Nat → Nat → Nat → Nat → Nat
  | .rowMajor, _, cols, r, c => r * cols + c
  | .columnMajor, rows, _, r, c => c * rows + r

/-- `init(rows, cols, order)`: zero-filled (R32). A zero dimension has no stated meaning (U6). -/
def MatrixVal.init (rows cols : Nat) (order : StorageOrder) : Except MatrixStop MatrixVal :=
  if rows = 0 ∨ cols = 0 then .error .noMeaning
  else .ok ⟨rows, cols, order, List.replicate (rows * cols) 0⟩

/-- `get(r, c)` (R33). Data shorter than R30 says is no Matrix value and has no meaning. -/
def MatrixVal.get (m : MatrixVal) (r c : Nat) : Except MatrixStop Byte :=
  if m.rows ≤ r ∨ m.cols ≤ c then .error (.raised .outOfBounds)
  else
    match m.data[matIdx m.order m.rows m.cols r c]? with
    | some v => .ok v
    | none => .error .noMeaning

/-- `set(r, c, v)` (R33). -/
def MatrixVal.set (m : MatrixVal) (r c : Nat) (v : Byte) : Except MatrixStop MatrixVal :=
  if m.rows ≤ r ∨ m.cols ≤ c then .error (.raised .outOfBounds)
  else .ok { m with data := m.data.set (matIdx m.order m.rows m.cols r c) v }

/-- `getRow(r)` (R34). -/
def MatrixVal.getRow (m : MatrixVal) (r : Nat) : Except MatrixStop (List Byte) :=
  if m.rows ≤ r then .error (.raised .outOfBounds)
  else (List.range m.cols).mapM fun c => m.get r c

/-- `getCol(c)` (R34). -/
def MatrixVal.getCol (m : MatrixVal) (c : Nat) : Except MatrixStop (List Byte) :=
  if m.cols ≤ c then .error (.raised .outOfBounds)
  else (List.range m.rows).mapM fun r => m.get r c

/-- `for c = k, k+1, ...: set(M, r, c, values[c])`. -/
def MatrixVal.setRowFrom (m : MatrixVal) (r : Nat) : Nat → List Byte → Except MatrixStop MatrixVal
  | _, [] => .ok m
  | k, v :: vs =>
    match m.set r k v with
    | .ok m' => MatrixVal.setRowFrom m' r (k + 1) vs
    | .error e => .error e

/-- `for r = k, k+1, ...: set(M, r, c, values[r])`. -/
def MatrixVal.setColFrom (m : MatrixVal) (c : Nat) : Nat → List Byte → Except MatrixStop MatrixVal
  | _, [] => .ok m
  | k, v :: vs =>
    match m.set k c v with
    | .ok m' => MatrixVal.setColFrom m' c (k + 1) vs
    | .error e => .error e

/-- `setRow(r, values)` (R34); a sequence of another length has no stated meaning (U5). -/
def MatrixVal.setRow (m : MatrixVal) (r : Nat) (values : List Byte) : Except MatrixStop MatrixVal :=
  if m.rows ≤ r then .error (.raised .outOfBounds)
  else if values.length ≠ m.cols then .error .noMeaning
  else MatrixVal.setRowFrom m r 0 values

/-- `setCol(c, values)` (R34); a sequence of another length has no stated meaning (U5). -/
def MatrixVal.setCol (m : MatrixVal) (c : Nat) (values : List Byte) : Except MatrixStop MatrixVal :=
  if m.cols ≤ c then .error (.raised .outOfBounds)
  else if values.length ≠ m.rows then .error .noMeaning
  else MatrixVal.setColFrom m c 0 values

/-- `span(M)` (R35). -/
def MatrixVal.span (m : MatrixVal) : Nat :=
  match m.order with
  | .rowMajor => m.cols
  | .columnMajor => m.rows

/-- `count(M)` (R35). -/
def MatrixVal.count (m : MatrixVal) : Nat :=
  match m.order with
  | .rowMajor => m.rows
  | .columnMajor => m.cols

/-- `getSlice(i)` (R35). -/
def MatrixVal.getSlice (m : MatrixVal) (i : Nat) : Except MatrixStop (List Byte) :=
  if m.count ≤ i then .error (.raised .outOfBounds)
  else .ok ((m.data.drop (i * m.span)).take m.span)

/-- `setSlice(i, values)` (R35); more values than the span has no stated meaning (U5). -/
def MatrixVal.setSlice (m : MatrixVal) (i : Nat) (values : List Byte) : Except MatrixStop MatrixVal :=
  if m.count ≤ i then .error (.raised .outOfBounds)
  else if values.length < m.span then .error (.raised .outOfBounds)
  else if m.span < values.length then .error .noMeaning
  else .ok { m with data := m.data.take (i * m.span) ++ values ++ m.data.drop (i * m.span + m.span) }

/-- `for c = k, k+1, ...: setCol(M, c, columns[c])` (R110). -/
def MatrixVal.setColumns (m : MatrixVal) : Nat → List (List Byte) → Except MatrixStop MatrixVal
  | _, [] => .ok m
  | k, col :: rest =>
    match m.setCol k col with
    | .ok m' => MatrixVal.setColumns m' (k + 1) rest
    | .error e => .error e

end Sys2Proof.Machine
end

