-- ==== Sys2Proof/Machine/Ops.lean ====
section
/-! DEFINITION. The shared operations of the commands: responding (R54), raising an error (R121), the valid-bit checks
(R75, R112), reset (R140) and the access to the matrix buffer (R38). -/

namespace Sys2Proof.Machine

/-- The status code of an error (R120). -/
def errCode : Err → BitVec 4
  | .invalidExponent => 1
  | .invalidNumber => 2
  | .noInverse => 3
  | .outOfBounds => 4
  | .allocation => 5
  | .illegalCommand => 6
  | .notConstructed => 7

/-- The status code of success (R120). -/
def okCode : BitVec 4 := 0

/-- `rsp = status * 2^8 + result` (R54). -/
def rspWord (status : BitVec 4) (result : Byte) : RspWord :=
  BitVec.ofNat 16 (status.toNat * 2 ^ 8 + result.toNat)

/-- The status field of a response word (R54). -/
def rspStatus (r : RspWord) : BitVec 4 := BitVec.ofNat 4 (r.toNat / 2 ^ 8)

/-- The result field of a response word (R54). -/
def rspResult (r : RspWord) : Byte := BitVec.ofNat 8 r.toNat

/-- Deliver a response. -/
def deliver (r : RspWord) (s : State) : State := { s with rsps := s.rsps ++ [r] }

/-- `respond(OK, v)` (R7, R54). -/
def respondOk (v : Nat) (s : State) : Host.Outcome State Fault Refusal :=
  .next (deliver (rspWord okCode (BitVec.ofNat 8 v)) s)

/-- `raise E`: the response `respond(code(E), 0)`, and nothing else happens (R121, R126). Called with the state before
the command, so that a failed command writes no state. -/
def raise (e : Err) (s : State) : Host.Outcome State Fault Refusal :=
  .next (deliver (rspWord (errCode e) 0) s)

/-- End a command: its new state and result byte, or its error on the state before it (R121). -/
def complete (s : State) : Except Err (State × Nat) → Host.Outcome State Fault Refusal
  | .ok (t, v) => respondOk v t
  | .error e => raise e s

/-- End a command that writes no state. -/
def answer (s : State) : Except Err Nat → Host.Outcome State Fault Refusal
  | .ok v => respondOk v s
  | .error e => raise e s

/-- `EXP`, `ORDER`, `DIVISOR` as numbers (R13). -/
def State.field (s : State) : FieldCfg := ⟨s.exp.toNat, s.order.toNat, s.divisor.toNat⟩

/-- `requireField` (R75). -/
def requireField (s : State) : Except Err Unit :=
  if s.cfgv then .ok () else .error .notConstructed

/-- The `MATV` check of MGET and RDCFG (R74, R112). -/
def requireMatrix (s : State) : Except Err Unit :=
  if s.matv then .ok () else .error .notConstructed

/-- Write the field's three numbers and `CFGV`, all four together (R70). -/
def writeField (F : FieldCfg) (s : State) : State :=
  { s with
    exp := BitVec.ofNat 3 F.exp
    order := BitVec.ofNat 8 F.order
    divisor := BitVec.ofNat 8 F.divisor
    cfgv := true }

/-- Put a Matrix value in the buffer, replacing the old one whole (R110, D11). Bytes past its data hold no value
(log entry 7). -/
def writeMatrix (m : MatrixVal) (s : State) : State :=
  { s with
    mrows := BitVec.ofNat 3 m.rows
    mcols := BitVec.ofNat 3 m.cols
    morder := m.order
    mat := Memory.writeRun [] 0 m.data
    matv := true }

/-- The Matrix value in the buffer (R38). -/
def bufferMatrix (s : State) : MatrixVal :=
  { rows := s.mrows.toNat
    cols := s.mcols.toNat
    order := s.morder
    data := (List.range (s.mrows.toNat * s.mcols.toNat)).map (Memory.read s.mat) }

/-- `MemRead(addr, 1)` on the buffer: 49 bytes, no others (R24, R44; log entry 11). -/
def memRead (s : State) (addr : Nat) : Except Fault Byte :=
  if addr < matCap then .ok (Memory.read s.mat addr) else .error (.outsideBuffer addr)

/-- What an illegal word does (R56, R125). -/
def illegalWord (s : State) : Host.Outcome State Fault Refusal := raise .illegalCommand s

/-- What reset does to the core (R140): the reset state, whatever was in progress. The host's remaining inputs and the
responses it has received are the host's and stay (log entry 9). -/
def coreReset (s : State) : Host.Outcome State Fault Refusal :=
  .next { State.reset with host := s.host, rsps := s.rsps }

/-- The core waits for a command (R140; log entry 8). -/
def idle (s : State) : Host.Outcome State Fault Refusal := .next s

end Sys2Proof.Machine
end

