-- ==== Sys2Proof/Machine/Operands.lean ====
section
/-! DEFINITION. The operand forms (`30_encoding.md` R53): a byte used as a number, and RDCFG's selector. -/

namespace Sys2Proof.Machine

/-- An operand field as a natural number 0..255: no sign extension, no scaling (R53). -/
def operand (x : Byte) : Nat := x.toNat

/-- The register a selector byte names, if any (R13, R20, R74). -/
def selectorOf (sel : Byte) : Option Selector :=
  match sel.toNat with
  | 0 => some .exp
  | 1 => some .order
  | 2 => some .divisor
  | 3 => some .status
  | 4 => some .mrows
  | 5 => some .mcols
  | 6 => some .morder
  | _ => none

/-- `MORDER` as a bit (R20). -/
def orderBit : StorageOrder → Nat
  | .rowMajor => 0
  | .columnMajor => 1

/-- The value of a register, behind its valid bit (R74). -/
def readRegister (s : State) : Selector → Except Err Nat
  | .exp => do requireField s; return s.exp.toNat
  | .order => do requireField s; return s.order.toNat
  | .divisor => do requireField s; return s.divisor.toNat
  | .status => return statusView s
  | .mrows => do requireMatrix s; return s.mrows.toNat
  | .mcols => do requireMatrix s; return s.mcols.toNat
  | .morder => do requireMatrix s; return orderBit s.morder

end Sys2Proof.Machine
end

