-- ==== Sys2Proof/Machine/Adder.lean ====
section
/-! DEFINITION. ADD, NEG, SUB (`41_add.md`). -/

namespace Sys2Proof.Machine

/-- ADD a, b (R80). -/
def execAdd (a b : Byte) (s : State) : Host.Outcome State Fault Refusal :=
  answer s do
    requireField s
    let x ← validate s.field (operand a)
    let y ← validate s.field (operand b)
    validate s.field (x ^^^ y)

/-- NEG a (R81). -/
def execNeg (a : Byte) (s : State) : Host.Outcome State Fault Refusal :=
  answer s do
    requireField s
    validate s.field (operand a)

/-- SUB a, b as `add(a, neg(b))`, operands validated in that order (R82). -/
def execSub (a b : Byte) (s : State) : Host.Outcome State Fault Refusal :=
  answer s do
    requireField s
    let y ← validate s.field (operand b)
    let x ← validate s.field (operand a)
    let y ← validate s.field y
    validate s.field (x ^^^ y)

end Sys2Proof.Machine
end

