-- ==== Sys2Proof/Machine/Configure.lean ====
section
/-! DEFINITION. INIT, VALIDATE, RDCFG (`40_config_validate.md`). -/

namespace Sys2Proof.Machine

/-- INIT n (R70): the range check precedes every write. -/
def execInit (n : Byte) (s : State) : Host.Outcome State Fault Refusal :=
  complete s <|
    if operand n < nMin ∨ nMax < operand n then .error .invalidExponent
    else .ok (writeField (fieldOf (operand n)) s, 0)

/-- VALIDATE a (R73). -/
def execValidate (a : Byte) (s : State) : Host.Outcome State Fault Refusal :=
  answer s do
    requireField s
    validate s.field (operand a)

/-- RDCFG sel (R74). -/
def execRdcfg (sel : Byte) (s : State) : Host.Outcome State Fault Refusal :=
  answer s <|
    match selectorOf sel with
    | some x => readRegister s x
    | none => .error .illegalCommand

end Sys2Proof.Machine
end

