-- ==== Sys2Proof/Machine/Converter.lean ====
section
/-! DEFINITION. TOMATRIX and MGET (`44_tomatrix.md`). -/

namespace Sys2Proof.Machine

/-- The n products `col[c] = fmul(a, 1 << c)` of TOMATRIX (R110). -/
def matrixColumns (F : FieldCfg) (a : Nat) : Except Err (List Nat) :=
  (List.range F.exp).mapM fun c => fmul F a (1 <<< c)

/-- `[bit(v, 0), ..., bit(v, n-1)]` as bytes (R110). -/
def columnBits (n v : Nat) : List Byte := (List.range n).map fun r => BitVec.ofNat 8 (bitAt v r)

/-- `M = init(n, n, RowMajor)`, then `setCol(M, c, bits of col[c])` for every c (R110). -/
def matrixOfColumns (n : Nat) (cols : List Nat) : Except MatrixStop MatrixVal := do
  let m ← MatrixVal.init n n .rowMajor
  MatrixVal.setColumns m 0 (cols.map (columnBits n))

/-- The end of TOMATRIX: the finished matrix goes into the buffer, and the response is `OK 0` (R110). The container calls
cannot stop where `EXP >= 1`. -/
def storeMatrix (s : State) : Except MatrixStop MatrixVal → Host.Outcome State Fault Refusal
  | .ok m => respondOk 0 (writeMatrix m s)
  | .error (.raised e) => raise e s
  | .error .noMeaning => .refused .containerUnstated

/-- TOMATRIX a (R110): every multiplication precedes the first write (D10). -/
def execToMatrix (a : Byte) (s : State) : Host.Outcome State Fault Refusal :=
  match (do requireField s; matrixColumns s.field (operand a)) with
  | .ok cols => storeMatrix s (matrixOfColumns s.field.exp cols)
  | .error e => raise e s

/-- The checks of MGET and the linear index it reads (R112, R31). -/
def mgetIndex (s : State) (r c : Nat) : Except Err Nat := do
  requireMatrix s
  if s.mrows.toNat ≤ r ∨ s.mcols.toNat ≤ c then .error .outOfBounds
  else return matIdx s.morder s.mrows.toNat s.mcols.toNat r c

/-- MGET r, c (R112). -/
def execMget (r c : Byte) (s : State) : Host.Outcome State Fault Refusal :=
  match mgetIndex s (operand r) (operand c) with
  | .error e => raise e s
  | .ok addr =>
    match memRead s addr with
    | .ok v => respondOk v.toNat s
    | .error f => .fault f

end Sys2Proof.Machine
end

