-- ==== Sys2Proof/Machine/Inverter.lean ====
section
/-! DEFINITION. INVERT and DIV (`43_div_invert.md`). -/

namespace Sys2Proof.Machine

/-- INVERT a (R101). -/
def execInvert (a : Byte) (s : State) : Host.Outcome State Fault Refusal :=
  answer s do
    requireField s
    finv s.field (operand a)

/-- DIV a, b (R102): the inverse of `b` is evaluated before `a` is looked at (D14). -/
def execDiv (a b : Byte) (s : State) : Host.Outcome State Fault Refusal :=
  answer s do
    requireField s
    let v ← finv s.field (operand b)
    fmul s.field (operand a) v

end Sys2Proof.Machine
end

