-- ==== Sys2Proof/Machine/Multiplier.lean ====
section
/-! DEFINITION. MUL (`42_mul.md`). -/

namespace Sys2Proof.Machine

/-- MUL a, b (R90). -/
def execMul (a b : Byte) (s : State) : Host.Outcome State Fault Refusal :=
  answer s do
    requireField s
    fmul s.field (operand a) (operand b)

end Sys2Proof.Machine
end

