-- ==== Sys2Proof/Machine/Dispatch.lean ====
section
/-! DEFINITION. One arm per command (`30_encoding.md` R55). -/

namespace Sys2Proof.Machine

def exec (i : Instr) (s : State) : Host.Outcome State Fault Refusal :=
  match i with
  | .init n => Sys2Proof.Machine.execInit n s
  | .validate a => Sys2Proof.Machine.execValidate a s
  | .add a b => Sys2Proof.Machine.execAdd a b s
  | .neg a => Sys2Proof.Machine.execNeg a s
  | .sub a b => Sys2Proof.Machine.execSub a b s
  | .mul a b => Sys2Proof.Machine.execMul a b s
  | .div a b => Sys2Proof.Machine.execDiv a b s
  | .invert a => Sys2Proof.Machine.execInvert a s
  | .toMatrix a => Sys2Proof.Machine.execToMatrix a s
  | .mget r c => Sys2Proof.Machine.execMget r c s
  | .rdcfg sel => Sys2Proof.Machine.execRdcfg sel s

end Sys2Proof.Machine
end

