-- ==== Sys2Proof/Machine/Step.lean ====
section
/-! DEFINITION. One step: what the host does next at the ports (`00_scope.md` R8, `30_encoding.md` R51, R62). -/

namespace Sys2Proof.Machine

/-- One word taken from the command port: illegal words first, then the command's rule (R62). -/
def runWord (w : CmdWord) (s : State) : Host.Outcome State Fault Refusal :=
  match decode w with
  | .ok i => exec i s
  | .error _ => illegalWord s

/-- One step of the core: it takes the host's next input; with none, it waits. -/
def step (s : State) : Host.Outcome State Fault Refusal :=
  match s.host with
  | [] => idle s
  | .command w :: rest => runWord w { s with host := rest }
  | .reset _ :: rest => coreReset { s with host := rest }

/-- `s` with the word at the command port, in front of what the host presents later, so that the next step runs it
(log entry 2). -/
def State.withFetchWord (s : State) (nbits w : Nat) : State :=
  { s with host := .command (BitVec.ofNat 32 (w % 2 ^ nbits)) :: s.host }

end Sys2Proof.Machine
end

