-- ==== Sys2Proof/Machine/Macros.lean ====
section
/-! DEFINITION. The host's macros for reading rows, columns and slices of the matrix (`30_encoding.md` R60). They are
sequences of commands the host issues, not commands of the core. -/

namespace Sys2Proof.Machine

/-- `MGETROW r`: the commands a host issues for `getRow(r)` of an n-column matrix (R60). -/
def mgetRowMacro (n : Nat) (r : Byte) : List Instr := (List.range n).map fun c => .mget r (BitVec.ofNat 8 c)

/-- `MGETCOL c` (R60). -/
def mgetColMacro (n : Nat) (c : Byte) : List Instr := (List.range n).map fun r => .mget (BitVec.ofNat 8 r) c

/-- `MGETSLICE i` is `MGETROW i`, the buffer being RowMajor (R60). -/
def mgetSliceMacro (n : Nat) (i : Byte) : List Instr := mgetRowMacro n i

/-- The host issues the commands of a macro one after the response to the previous one, and stops at the first error
response (R60). -/
def runMacro : List Instr → State → Host.Outcome State Fault Refusal
  | [], s => .next s
  | i :: rest, s =>
    match exec i s with
    | .next t => if t.rsps.getLast?.map rspStatus = some okCode then runMacro rest t else .next t
    | stopped => stopped

end Sys2Proof.Machine
end

