-- ==== Sys2Proof/Safety.lean ====
section
/-! DEFINITION. The invariants the spec states of the core's state (`10_state.md` R18, R22 to R24), and the words in which
statements say what a command answers (`30_encoding.md` R54). -/

namespace Sys2Proof.Machine

/-- The configuration invariant (R18): while `CFGV = 1`, `1 <= EXP <= 7`, `ORDER = 1 << EXP`, `DIVISOR` is the table's. -/
abbrev ConfigOk (s : State) : Prop :=
  s.cfgv = true →
    1 ≤ s.exp.toNat ∧ s.exp.toNat ≤ 7 ∧ s.order.toNat = 1 <<< s.exp.toNat ∧ s.divisor.toNat = divTab s.exp.toNat

/-- The matrix invariant (R22, R23, R24): while `MATV = 1`, the shape is square and at least 1, the storage order is
RowMajor, the buffer holds exactly `MROWS * MCOLS` bytes from index 0 on, and each is 0 or 1. -/
abbrev MatrixOk (s : State) : Prop :=
  s.matv = true →
    1 ≤ s.mrows.toNat ∧ s.mcols = s.mrows ∧ s.morder = .rowMajor ∧
      s.mat.map Prod.fst = List.range (s.mrows.toNat * s.mcols.toNat) ∧ ∀ cell ∈ s.mat, cell.2.toNat ≤ 1

/-- The model's invariant: both of the spec's, and the memory in canonical form. -/
abbrev CoreInv (s : State) : Prop := ConfigOk s ∧ MatrixOk s ∧ Memory.wf s.mat = true

/-- A field has been constructed and the configuration invariant holds: where the field commands execute. -/
abbrev Configured (s : State) : Prop := s.cfgv = true ∧ ConfigOk s

/-- `v` is an element of the configured field (R9, R19). -/
abbrev Element (s : State) (v : Byte) : Prop := v.toNat < s.order.toNat

/-- `s` after one more response `status * 2^8 + result`, and nothing else changed (R54, R126). -/
def answered (s : State) (status result : Nat) : State :=
  { s with rsps := s.rsps ++ [BitVec.ofNat 16 (status * 256 + result)] }

/-- The command answers `OK v` and writes no state. -/
abbrev Answers (i : Instr) (s : State) (v : Byte) : Prop := exec i s = .next (answered s 0 v.toNat)

/-- The command answers with the error of this code and writes no state (R121). -/
abbrev Fails (i : Instr) (s : State) (code : Nat) : Prop := exec i s = .next (answered s code 0)

/-- The response word `r` is what the command sends to get from `s` to `t`. -/
abbrev Responds (s t : State) (r : RspWord) : Prop := t.rsps = s.rsps ++ [r]

/-- Element (r, c) of the matrix a buffer holds, read from the byte memory in the buffer's storage order (R31, R38). -/
def matrixEntry (s : State) (r c : Nat) : Byte :=
  Memory.read s.mat (matIdx s.morder s.mrows.toNat s.mcols.toNat r c)

/-- Two states no host can tell apart by any response: equal but for registers the spec leaves unspecified while their
valid bit is 0 (R28, U10). -/
abbrev SameToHost (s t : State) : Prop :=
  s.cfgv = t.cfgv ∧ s.matv = t.matv ∧ s.host = t.host ∧ s.rsps = t.rsps ∧
    (s.cfgv = true → s.exp = t.exp ∧ s.order = t.order ∧ s.divisor = t.divisor) ∧
    (s.matv = true → s.mrows = t.mrows ∧ s.mcols = t.mcols ∧ s.morder = t.morder ∧ s.mat = t.mat)

end Sys2Proof.Machine
end

