-- ==== Sys2Proof/Certificates/Slice0/Obligations.lean ====
section
/-! DEFINITION. The statements about the core, in the words of Safety.lean: `Answers i s v` (command `i` completes in state
`s` with response `OK v` and nothing else changed), `Fails i s code` (it completes with that error and nothing else
changed). -/

open Sys2Proof Sys2Proof.Machine

/-! ## Encoding -/

/-- R52, R55: the decoder reads back every command from its word, every operand at every value. -/
def Obligations.DecodeOfEncodeIsIdentity : Prop :=
  ∀ i : Instr, decode (encode i) = .ok i

/-- R55, R57: every word that is a command is that command's one word. -/
def Obligations.EncodeOfDecodeIsIdentity : Prop :=
  ∀ (w : CmdWord) (i : Instr), decode w = .ok i → encode i = w

/-- R55, R56: the decoder rejects exactly the words of (a), (b), (c) of R56, and exactly those that match no row. -/
def Obligations.IllegalWordsMatchNoRow : Prop :=
  ∀ w : CmdWord,
    ((∃ e, decode w = .error e) ↔
      (w.toNat / 2 ^ 24 = 0 ∨ 0x0C ≤ w.toNat / 2 ^ 24) ∨ w.toNat / 2 ^ 16 % 256 ≠ 0 ∨
        (w.toNat / 2 ^ 24 ∈ [0x01, 0x02, 0x04, 0x08, 0x09, 0x0B] ∧ w.toNat / 2 ^ 8 % 256 ≠ 0)) ∧
    ((∃ e, decode w = .error e) ↔ ∀ row ∈ opcodeRows, w &&& row.mask ≠ row.pattern)

/-- R59 and `95_test_vectors.md`: words the spec spells out, one per command. -/
def Obligations.DecodeReadsTheSpecsWords : Prop :=
  ∀ p ∈ ([(0x01000003, .init 3), (0x02000007, .validate 7), (0x03000305, .add 5 3), (0x04000005, .neg 5),
      (0x05000305, .sub 5 3), (0x06000305, .mul 5 3), (0x07000504, .div 4 5), (0x08000005, .invert 5),
      (0x09000002, .toMatrix 2), (0x0A000102, .mget 2 1), (0x0B000002, .rdcfg 2)] : List (CmdWord × Instr)),
    decode p.1 = .ok p.2

/-- R125: a word that matches no row is answered with code 6 before any state is consulted, and so are the RDCFG
selectors 7 to 255. -/
def Obligations.IllegalCommandsAnswerCodeSix : Prop :=
  (∀ (s : State) (w : CmdWord) (rest : List HostEvent), s.host = .command w :: rest →
    (∀ row ∈ opcodeRows, w &&& row.mask ≠ row.pattern) → step s = .next (answered { s with host := rest } 6 0)) ∧
  ∀ (s : State) (sel : Byte), 7 ≤ sel.toNat → Fails (.rdcfg sel) s 6

/-! ## The step -/

/-- R62: a word at the command port that decodes to a command runs as that command, in the state without the word. -/
def Obligations.StepRunsTheDecodedCommand : Prop :=
  ∀ (s : State) (w : CmdWord) (rest : List HostEvent) (i : Instr), s.host = .command w :: rest → decode w = .ok i →
    step s = exec i { s with host := rest }

/-- A word put at the command port by `withFetchWord` is the one the next step runs, and the port is then as before. -/
def Obligations.PresentedWordRunsNext : Prop :=
  ∀ (s : State) (nbits w : Nat) (i : Instr), decodeTableWord nbits w = some i →
    step (s.withFetchWord nbits w) = exec i s

/-- R51, R54, R120, R145 (waiting with nothing at the command port: log entry 8): a step always answers, where a
configured exponent is not 0, which R18 says. One command gives one response, whose top four bits are 0, whose status is
0 or a code of R120 other than the reserved 5, and whose result is 0 when the status is not. A reset gives none. -/
def Obligations.EveryCommandGetsOneResponse : Prop :=
  ∀ s : State, (s.cfgv = true → s.exp ≠ 0) → ∃ t, step s = .next t ∧
    (s.host = [] → t = s) ∧
    (∀ w rest, s.host = .command w :: rest → t.host = rest ∧ ∃ r, Responds s t r ∧
      r.toNat / 256 ∈ [0, 1, 2, 3, 4, 6, 7] ∧ (r.toNat / 256 ≠ 0 → r.toNat % 256 = 0)) ∧
    (∀ f rest, s.host = .reset f :: rest → t.host = rest ∧ t.rsps = s.rsps)

/-- Log entries 11, 12: no step of any state faults; the only refusal is TOMATRIX with `CFGV = 1` and `EXP = 0`, which R18
excludes, and there it is that refusal. -/
def Obligations.StepStopsOnlyWithoutAnExponent : Prop :=
  (∀ (s : State) (f : Fault), step s ≠ .fault f) ∧
  (∀ (s : State) (q : Refusal), step s = .refused q → q = .containerUnstated ∧ s.cfgv = true ∧ s.exp = 0 ∧
    ∃ (w : CmdWord) (a : Byte) (rest : List HostEvent),
      s.host = .command w :: rest ∧ decode w = .ok (.toMatrix a)) ∧
  (∀ (s : State) (a : Byte), s.cfgv = true → s.exp = 0 → exec (.toMatrix a) s = .refused .containerUnstated)

/-! ## Reset -/

/-- R28: after reset both valid bits are 0, both ports are idle, no byte of the buffer holds a value, STATUS reads 0,
and every register the spec leaves unspecified is unreadable. -/
def Obligations.ResetLeavesNothingConstructed : Prop :=
  State.reset.cfgv = false ∧ State.reset.matv = false ∧ State.reset.host = [] ∧ State.reset.rsps = [] ∧
  (∀ x, Memory.read? State.reset.mat x = none) ∧ Answers (.rdcfg 3) State.reset 0 ∧
  (∀ sel ∈ ([0, 1, 2, 4, 5, 6] : List Byte), Fails (.rdcfg sel) State.reset 7) ∧
  ∀ r c : Byte, Fails (.mget r c) State.reset 7

/-- R140 (the host's own lists: log entry 9): reset gives the reset state, whatever the state and whatever command is
in progress, and no response. -/
def Obligations.ResetAbandonsTheCommandInProgress : Prop :=
  ∀ (s : State) (f : Option CmdWord) (rest : List HostEvent), s.host = .reset f :: rest →
    step s = .next { State.reset with host := rest, rsps := s.rsps }

/-- R28, U10: the registers left unspecified cannot be observed. Two states that differ only in registers whose valid bit
is 0 step to two such states, with the same responses. -/
def Obligations.UnspecifiedRegistersCannotBeObserved : Prop :=
  ∀ s t s' : State, SameToHost s t → step s = .next s' → ∃ t', step t = .next t' ∧ SameToHost s' t'

/-! ## What each command does -/

/-- R70: INIT n, its word, and its effect for each n of the table and for every other n, in every state. -/
def Obligations.InitConstructsTheField : Prop :=
  ∀ s : State,
    (∀ n : Byte, decode (BitVec.ofNat 32 (0x01000000 + n.toNat)) = .ok (.init n)) ∧
    (∀ p ∈ [(1, 2, 3), (2, 4, 7), (3, 8, 11), (4, 16, 19), (5, 32, 37), (6, 64, 67), (7, 128, 131)],
      exec (.init (BitVec.ofNat 8 p.1)) s =
        .next (answered { s with
          exp := BitVec.ofNat 3 p.1
          order := BitVec.ofNat 8 p.2.1
          divisor := BitVec.ofNat 8 p.2.2
          cfgv := true } 0 0)) ∧
    ∀ n : Byte, n.toNat = 0 ∨ 8 ≤ n.toNat → Fails (.init n) s 1

/-- R73: VALIDATE answers its operand when it is below ORDER, and nothing is masked. -/
def Obligations.ValidateAnswersItsOperand : Prop :=
  ∀ (s : State) (a : Byte),
    decode (BitVec.ofNat 32 (0x02000000 + a.toNat)) = .ok (.validate a) ∧
    (s.cfgv = false → Fails (.validate a) s 7) ∧
    (s.cfgv = true → Element s a → Answers (.validate a) s a) ∧
    (s.cfgv = true → ¬ Element s a → Fails (.validate a) s 2)

/-- R81: NEG is the identity on elements. -/
def Obligations.NegIsTheIdentity : Prop :=
  ∀ (s : State) (a : Byte),
    decode (BitVec.ofNat 32 (0x04000000 + a.toNat)) = .ok (.neg a) ∧
    (s.cfgv = false → Fails (.neg a) s 7) ∧
    (s.cfgv = true → Element s a → Answers (.neg a) s a) ∧
    (s.cfgv = true → ¬ Element s a → Fails (.neg a) s 2)

/-- R80: ADD is exclusive-or on elements. -/
def Obligations.AddIsExclusiveOr : Prop :=
  ∀ (s : State) (a b : Byte),
    decode (BitVec.ofNat 32 (0x03000000 + b.toNat * 256 + a.toNat)) = .ok (.add a b) ∧
    (s.cfgv = false → Fails (.add a b) s 7) ∧
    (Configured s → Element s a → Element s b → Answers (.add a b) s (a ^^^ b)) ∧
    (s.cfgv = true → ¬ (Element s a ∧ Element s b) → Fails (.add a b) s 2)

/-- R82: SUB is exclusive-or on elements. -/
def Obligations.SubIsExclusiveOr : Prop :=
  ∀ (s : State) (a b : Byte),
    decode (BitVec.ofNat 32 (0x05000000 + b.toNat * 256 + a.toNat)) = .ok (.sub a b) ∧
    (s.cfgv = false → Fails (.sub a b) s 7) ∧
    (Configured s → Element s a → Element s b → Answers (.sub a b) s (a ^^^ b)) ∧
    (s.cfgv = true → ¬ (Element s a ∧ Element s b) → Fails (.sub a b) s 2)

/-- The spec's inferences at the corner cases of R81 and R82: in every state SUB does what ADD does and NEG what VALIDATE
does, whatever the operands. -/
def Obligations.SubIsAddAndNegIsValidate : Prop :=
  ∀ (s : State) (a b : Byte), exec (.sub a b) s = exec (.add a b) s ∧ exec (.neg a) s = exec (.validate a) s

/-- MUL answers the carry-less product reduced by the divisor, for every n (R90, R92, R93). For n = 1 this is the spec's
inference in R94, where `fmul` takes the integer product: "The special case gives the same values the general case
would". -/
def Obligations.MulAnswersTheReducedProduct : Prop :=
  ∀ (s : State) (a b : Byte),
    decode (BitVec.ofNat 32 (0x06000000 + b.toNat * 256 + a.toNat)) = .ok (.mul a b) ∧
    (s.cfgv = false → Fails (.mul a b) s 7) ∧
    (Configured s → Element s a → Element s b →
      ∃ p : Byte, Answers (.mul a b) s p ∧ p.toNat = reduce s.field (clmul a.toNat b.toNat)) ∧
    (s.cfgv = true → ¬ (Element s a ∧ Element s b) → Fails (.mul a b) s 2)

/-- R92, R93: read as polynomials over GF(2), what MUL answers is the remainder of the product of its operands on division
by the divisor polynomial. -/
def Obligations.MulIsPolynomialMultiplication : Prop :=
  ∀ (s : State) (a b : Byte), Configured s → Element s a → Element s b →
    let poly : Nat → Polynomial (ZMod 2) := fun v =>
      ∑ i ∈ Finset.range 16, if v.testBit i then Polynomial.X ^ i else 0
    ∃ p : Byte, Answers (.mul a b) s p ∧
      poly p.toNat = poly a.toNat * poly b.toNat %ₘ poly s.divisor.toNat

/-- R101: INVERT answers the first element, ascending from 0, whose product with the operand is 1; 0 has none; an operand
outside the field is a number error, not a missing inverse. -/
def Obligations.InvertAnswersTheInverse : Prop :=
  ∀ (s : State) (a : Byte),
    decode (BitVec.ofNat 32 (0x08000000 + a.toNat)) = .ok (.invert a) ∧
    (s.cfgv = false → Fails (.invert a) s 7) ∧
    (s.cfgv = true → a.toNat = 0 → Fails (.invert a) s 3) ∧
    (Configured s → ¬ Element s a → Fails (.invert a) s 2) ∧
    (Configured s → a.toNat ≠ 0 → Element s a →
      ∃ v : Byte, Answers (.invert a) s v ∧ Element s v ∧ Answers (.mul a v) s 1 ∧
        ∀ w : Byte, w.toNat < v.toNat → ¬ Answers (.mul a w) s 1)

/-- R100 (b), R103, R101's corner cases: every element but 0 has exactly one inverse, which INVERT answers, and INVERT
undoes itself. -/
def Obligations.EveryNonzeroElementHasOneInverse : Prop :=
  ∀ (s : State) (a : Byte), Configured s → Element s a → a.toNat ≠ 0 →
    ∃ v : Byte, Answers (.invert a) s v ∧ Answers (.invert v) s a ∧
      ∀ w : Byte, Element s w → (Answers (.mul a w) s 1 ↔ w = v)

/-- R102: DIV multiplies by the inverse of its second operand, whose errors come first. -/
def Obligations.DivMultipliesByTheInverse : Prop :=
  ∀ (s : State) (a b : Byte),
    decode (BitVec.ofNat 32 (0x07000000 + b.toNat * 256 + a.toNat)) = .ok (.div a b) ∧
    (s.cfgv = false → Fails (.div a b) s 7) ∧
    (s.cfgv = true → b.toNat = 0 → Fails (.div a b) s 3) ∧
    (Configured s → b.toNat ≠ 0 → ¬ (Element s a ∧ Element s b) → Fails (.div a b) s 2) ∧
    (Configured s → b.toNat ≠ 0 → Element s a → Element s b →
      ∃ v q : Byte, Answers (.invert b) s v ∧ Answers (.mul a v) s q ∧ Answers (.div a b) s q)

/-- R102: multiplying a quotient by its divisor gives the dividend back. -/
def Obligations.DivThenMulRestores : Prop :=
  ∀ (s : State) (a b : Byte), Configured s → Element s a → Element s b → b.toNat ≠ 0 →
    ∃ q : Byte, Answers (.div a b) s q ∧ Answers (.mul q b) s a

/-- R110: TOMATRIX writes MATV, MROWS, MCOLS, MORDER and the n*n bytes, byte (r, c) at index r*n + c being bit r of the
product of the operand and 2^c; on an error it writes nothing. -/
def Obligations.ToMatrixBuildsTheMatrix : Prop :=
  ∀ (s : State) (a : Byte),
    decode (BitVec.ofNat 32 (0x09000000 + a.toNat)) = .ok (.toMatrix a) ∧
    (s.cfgv = false → Fails (.toMatrix a) s 7) ∧
    (Configured s → ¬ Element s a → Fails (.toMatrix a) s 2) ∧
    (Configured s → Element s a → ∃ m : Memory,
      exec (.toMatrix a) s =
        .next (answered { s with matv := true, mrows := s.exp, mcols := s.exp, morder := .rowMajor, mat := m } 0 0) ∧
      ∀ r c : Nat, r < s.exp.toNat → c < s.exp.toNat →
        ∃ p : Byte, Answers (.mul a (BitVec.ofNat 8 (2 ^ c))) s p ∧
          Memory.read? m (r * s.exp.toNat + c) = some (BitVec.ofNat 8 (p.toNat / 2 ^ r % 2)))

/-- R112: MGET reads the byte at its coordinates, by the shape the matrix was made with, whatever the field is. -/
def Obligations.MgetReadsTheBuffer : Prop :=
  ∀ (s : State) (r c : Byte),
    decode (BitVec.ofNat 32 (0x0A000000 + c.toNat * 256 + r.toNat)) = .ok (.mget r c) ∧
    (s.matv = false → Fails (.mget r c) s 7) ∧
    (s.matv = true → s.mrows.toNat ≤ r.toNat ∨ s.mcols.toNat ≤ c.toNat → Fails (.mget r c) s 4) ∧
    (s.matv = true → r.toNat < s.mrows.toNat → c.toNat < s.mcols.toNat →
      Answers (.mget r c) s (matrixEntry s r.toNat c.toNat))

/-- R74: RDCFG reads each register behind its valid bit, STATUS always. -/
def Obligations.RdcfgReadsTheSelectedRegister : Prop :=
  ∀ s : State,
    (∀ sel : Byte, decode (BitVec.ofNat 32 (0x0B000000 + sel.toNat)) = .ok (.rdcfg sel)) ∧
    (s.cfgv = true → Answers (.rdcfg 0) s (s.exp.setWidth 8) ∧ Answers (.rdcfg 1) s s.order ∧
      Answers (.rdcfg 2) s s.divisor) ∧
    (s.cfgv = false → ∀ sel ∈ ([0, 1, 2] : List Byte), Fails (.rdcfg sel) s 7) ∧
    Answers (.rdcfg 3) s (BitVec.ofNat 8 (s.matv.toNat * 2 + s.cfgv.toNat)) ∧
    (s.matv = true → Answers (.rdcfg 4) s (s.mrows.setWidth 8) ∧ Answers (.rdcfg 5) s (s.mcols.setWidth 8) ∧
      (s.morder = .rowMajor → Answers (.rdcfg 6) s 0) ∧ (s.morder = .columnMajor → Answers (.rdcfg 6) s 1)) ∧
    (s.matv = false → ∀ sel ∈ ([4, 5, 6] : List Byte), Fails (.rdcfg sel) s 7) ∧
    ∀ sel : Byte, 7 ≤ sel.toNat → Fails (.rdcfg sel) s 6

/-! ## The laws of the field -/

/-- R83: closure, commutativity, self-inverse, associativity, identity, inverse, SUB is ADD, NEG is the identity. -/
def Obligations.AdditionLaws : Prop :=
  ∀ s : State, Configured s → ∀ a b c : Byte, Element s a → Element s b → Element s c →
    ∃ ab bc abc : Byte, Element s ab ∧
      Answers (.add a b) s ab ∧ Answers (.add b a) s ab ∧ Answers (.add a ab) s b ∧
      Answers (.add b c) s bc ∧ Answers (.add ab c) s abc ∧ Answers (.add a bc) s abc ∧
      Answers (.add a 0) s a ∧ Answers (.add a a) s 0 ∧ Answers (.sub a b) s ab ∧ Answers (.neg a) s a

/-- R95: closure, associativity, commutativity, identity, zero, distributivity, no zero divisors. -/
def Obligations.MultiplicationLaws : Prop :=
  ∀ s : State, Configured s → ∀ a b c : Byte, Element s a → Element s b → Element s c →
    ∃ ab ac bc abc : Byte, Element s ab ∧
      Answers (.mul a b) s ab ∧ Answers (.mul b a) s ab ∧ Answers (.mul a c) s ac ∧
      Answers (.mul b c) s bc ∧ Answers (.mul a bc) s abc ∧ Answers (.mul ab c) s abc ∧
      Answers (.mul a 1) s a ∧ Answers (.mul a 0) s 0 ∧ Answers (.mul a (b ^^^ c)) s (ab ^^^ ac) ∧
      (ab = 0 → a = 0 ∨ b = 0)

/-- R103 (the spec's computation from R100): the inverse tables for n = 1 to 5, and the law they satisfy. -/
def Obligations.InverseTables : Prop :=
  ∀ p ∈ ([(1, [1]), (2, [1, 3, 2]), (3, [1, 5, 6, 7, 2, 3, 4]),
      (4, [1, 9, 14, 13, 11, 7, 6, 15, 2, 12, 5, 10, 4, 3, 8]),
      (5, [1, 18, 28, 9, 23, 14, 12, 22, 4, 25, 16, 7, 15, 6, 13,
        11, 24, 2, 29, 30, 26, 8, 5, 17, 10, 21, 31, 3, 19, 20, 27])] : List (Nat × List Byte)),
    ∀ s : State, s.cfgv = true → s.field = fieldOf p.1 →
      Fails (.invert 0) s 3 ∧
      ∀ (k : Nat) (v : Byte), p.2[k]? = some v →
        Answers (.invert (BitVec.ofNat 8 (k + 1))) s v ∧ Answers (.mul (BitVec.ofNat 8 (k + 1)) v) s 1

/-- R96, C1: with n = 3, `MUL 5, 3` answers 4, by the trace of the spec. -/
def Obligations.WorkedTraceGivesFour : Prop :=
  clmul 5 3 = clmulLoop 5 3 1 10 ∧ clmulLoop 5 3 1 10 = 15 ∧ countBits 15 = 4 ∧ reduceStep (fieldOf 3) 15 = 4 ∧
  reduce (fieldOf 3) 15 = 4 ∧
  ∀ s : State, s.cfgv = true → s.field = fieldOf 3 → Answers (.mul 5 3) s 4

/-! ## The matrix of an element -/

/-- R111 (1), (2), (5): each column of the matrix spells the product of the element and a basis value, the first spells
the element, and the matrix determines the element. -/
def Obligations.MatrixColumnsSpellTheProducts : Prop :=
  ∀ (s : State) (a b : Byte), Configured s → Element s a → Element s b →
    ∃ ta tb : State, exec (.toMatrix a) s = .next ta ∧ exec (.toMatrix b) s = .next tb ∧
      (∀ c < s.exp.toNat, ∃ p : Byte, Answers (.mul a (BitVec.ofNat 8 (2 ^ c))) s p ∧
        ∑ r ∈ Finset.range s.exp.toNat, (matrixEntry ta r c).toNat * 2 ^ r = p.toNat) ∧
      ∑ r ∈ Finset.range s.exp.toNat, (matrixEntry ta r 0).toNat * 2 ^ r = a.toNat ∧
      ((∀ r < s.exp.toNat, ∀ c < s.exp.toNat, matrixEntry ta r c = matrixEntry tb r c) → a = b)

/-- R111 (3): the matrix times the bits of an element, over GF(2), is the bits of the product. -/
def Obligations.MatrixTimesVectorIsTheProduct : Prop :=
  ∀ (s : State) (a b : Byte), Configured s → Element s a → Element s b →
    ∃ (t : State) (p : Byte), exec (.toMatrix a) s = .next t ∧ Answers (.mul a b) s p ∧
      ∀ r < s.exp.toNat, p.toNat / 2 ^ r % 2 =
        (∑ c ∈ Finset.range s.exp.toNat, (matrixEntry t r c).toNat * (b.toNat / 2 ^ c % 2)) % 2

/-- R111 (4): the matrix of a sum is the sum of the matrices, the matrix of a product is their product over GF(2). -/
def Obligations.MatrixOfSumsAndProducts : Prop :=
  ∀ (s : State) (a b : Byte), Configured s → Element s a → Element s b →
    ∃ (ta tb tsum tprod : State) (p : Byte), exec (.toMatrix a) s = .next ta ∧ exec (.toMatrix b) s = .next tb ∧
      exec (.toMatrix (a ^^^ b)) s = .next tsum ∧ Answers (.mul a b) s p ∧ exec (.toMatrix p) s = .next tprod ∧
      ∀ r < s.exp.toNat, ∀ c < s.exp.toNat,
        matrixEntry tsum r c = matrixEntry ta r c ^^^ matrixEntry tb r c ∧
        (matrixEntry tprod r c).toNat =
          (∑ k ∈ Finset.range s.exp.toNat, (matrixEntry ta r k).toNat * (matrixEntry tb k c).toNat) % 2

/-- R45 (a), R110, R112: an MGET after a successful TOMATRIX reads that matrix. -/
def Obligations.MgetReadsWhatToMatrixBuilt : Prop :=
  ∀ (s : State) (a : Byte), Configured s → Element s a → ∃ t : State, exec (.toMatrix a) s = .next t ∧
    ∀ r c : Byte, r.toNat < s.exp.toNat → c.toNat < s.exp.toNat →
      ∃ p : Byte, Answers (.mul a (BitVec.ofNat 8 (2 ^ c.toNat))) s p ∧
        Answers (.mget r c) t (BitVec.ofNat 8 (p.toNat / 2 ^ r.toNat % 2))

/-! ## Invariants -/

/-- The invariant holds after reset. -/
def Obligations.ResetMeetsTheInvariant : Prop := CoreInv State.reset

/-- R18, R22, R23, R24: every step from every state that meets the invariant leaves a state that meets it. -/
def Obligations.StepKeepsTheInvariant : Prop :=
  ∀ s t : State, CoreInv s → step s = .next t → CoreInv t

/-- R19: what the field commands accept and what they answer are elements. -/
def Obligations.ResultsLieInTheField : Prop :=
  ∀ (s : State) (a b v : Byte), ConfigOk s →
    (Answers (.validate a) s v ∨ Answers (.neg a) s v ∨ Answers (.invert a) s v → Element s a ∧ Element s v) ∧
    (Answers (.add a b) s v ∨ Answers (.sub a b) s v ∨ Answers (.mul a b) s v ∨ Answers (.div a b) s v →
      Element s a ∧ Element s b ∧ Element s v) ∧
    (∀ t, exec (.toMatrix a) s = .next t → Responds s t 0 → Element s a)

/-! ## What a command leaves unchanged -/

/-- R126: a command whose status is not 0 changes nothing but the response port, the buffer included. -/
def Obligations.FailedCommandWritesNothing : Prop :=
  ∀ (i : Instr) (s t : State) (r : RspWord), exec i s = .next t → Responds s t r → r.toNat / 256 ≠ 0 →
    t = { s with rsps := s.rsps ++ [r] }

/-- R73, R74, R80 to R82, R90, R101, R102, R112, "State written: none": these nine commands complete in every state and
change nothing but the response port. -/
def Obligations.AnsweringCommandsWriteNothing : Prop :=
  ∀ (s : State) (a b : Byte),
    ∀ i ∈ [Instr.validate a, .add a b, .neg a, .sub a b, .mul a b, .div a b, .invert a, .mget a b, .rdcfg a],
      ∃ r, exec i s = .next { s with rsps := s.rsps ++ [r] }

/-- R22, R70: INIT leaves the matrix, its shape and every byte of the buffer as they were, so MGET answers as before. -/
def Obligations.MatrixOutlivesInit : Prop :=
  ∀ (s : State) (n : Byte), ∃ t, exec (.init n) s = .next t ∧
    t.matv = s.matv ∧ t.mrows = s.mrows ∧ t.mcols = s.mcols ∧ t.morder = s.morder ∧ t.host = s.host ∧
    (∀ x, Memory.read? t.mat x = Memory.read? s.mat x) ∧
    ∀ (r c v : Byte), Answers (.mget r c) s v → Answers (.mget r c) t v

/-- R110, R24 (bytes past the matrix: log entry 7): TOMATRIX leaves the field's registers and the command port as they
were. It stores to the bytes below n*n and to no other; those past them, which the spec leaves unspecified, hold no
value after a success, and every byte is as before after a failure. -/
def Obligations.ToMatrixTouchesOnlyTheMatrix : Prop :=
  ∀ (s t : State) (a : Byte) (r : RspWord), exec (.toMatrix a) s = .next t → Responds s t r →
    t.cfgv = s.cfgv ∧ t.exp = s.exp ∧ t.order = s.order ∧ t.divisor = s.divisor ∧ t.host = s.host ∧
    (r = 0 → ∀ x, s.exp.toNat * s.exp.toNat ≤ x ↔ Memory.read? t.mat x = none) ∧
    (r ≠ 0 → ∀ x, Memory.read? t.mat x = Memory.read? s.mat x)

/-- R25: no response depends on the matrix but MGET's and RDCFG's; TOMATRIX overwrites the matrix without reading it;
MGET and RDCFG of the matrix's attributes do not read the field. -/
def Obligations.OnlyMatrixReadsDependOnTheMatrix : Prop :=
  (∀ (s t s' : State) (i : Instr),
    s.cfgv = t.cfgv → s.exp = t.exp → s.order = t.order → s.divisor = t.divisor →
    (∀ r c, i ≠ .mget r c) → (∀ sel, i ≠ .rdcfg sel) → exec i s = .next s' →
    ∃ (t' : State) (r : RspWord), exec i t = .next t' ∧ Responds s s' r ∧ Responds t t' r ∧
      (∀ a, i = .toMatrix a → r = 0 → s'.matv = t'.matv ∧ s'.mrows = t'.mrows ∧ s'.mcols = t'.mcols ∧
        s'.morder = t'.morder ∧ s'.mat = t'.mat)) ∧
  (∀ (s t : State) (i : Instr),
    s.matv = t.matv → s.mrows = t.mrows → s.mcols = t.mcols → s.morder = t.morder → s.mat = t.mat →
    (∃ r c, i = .mget r c) ∨ i ∈ [Instr.rdcfg 4, .rdcfg 5, .rdcfg 6] →
    ∃ r : RspWord, exec i s = .next { s with rsps := s.rsps ++ [r] } ∧ exec i t = .next { t with rsps := t.rsps ++ [r] })

/-! ## Errors -/

/-- R124: `NotConstructedError` is raised when the valid bit a command checks is 0, whatever the operands, by no command
otherwise, and no step but a reset clears a valid bit. -/
def Obligations.NotConstructedFollowsTheValidBits : Prop :=
  (∀ (s : State) (a b : Byte), s.cfgv = false →
    ∀ i ∈ [Instr.validate a, .add a b, .neg a, .sub a b, .mul a b, .div a b, .invert a, .toMatrix a,
      .rdcfg 0, .rdcfg 1, .rdcfg 2], Fails i s 7) ∧
  (∀ (s : State) (a b : Byte), s.matv = false → ∀ i ∈ [Instr.mget a b, .rdcfg 4, .rdcfg 5, .rdcfg 6], Fails i s 7) ∧
  (∀ (s : State) (a b : Byte), s.cfgv = true →
    ∀ i ∈ [Instr.validate a, .add a b, .neg a, .sub a b, .mul a b, .div a b, .invert a, .toMatrix a,
      .rdcfg 0, .rdcfg 1, .rdcfg 2], ¬ Fails i s 7) ∧
  (∀ (s : State) (a b : Byte), s.matv = true →
    ∀ i ∈ [Instr.mget a b, .rdcfg 4, .rdcfg 5, .rdcfg 6], ¬ Fails i s 7) ∧
  (∀ (s : State) (n sel : Byte), sel.toNat = 3 ∨ 7 ≤ sel.toNat → ¬ Fails (.init n) s 7 ∧ ¬ Fails (.rdcfg sel) s 7) ∧
  (∀ s t : State, (∀ f rest, s.host ≠ .reset f :: rest) → step s = .next t →
    (s.cfgv = true → t.cfgv = true) ∧ (s.matv = true → t.matv = true))

/-- R12, R129: an error leaves no trace. After a failed command every command does what it would have done had the failed
one never been issued. -/
def Obligations.ErrorsLeaveNoTrace : Prop :=
  ∀ (i j : Instr) (s t u : State) (r : RspWord), exec i s = .next t → Responds s t r → r.toNat / 256 ≠ 0 →
    exec j s = .next u → ∃ q : RspWord, Responds s u q ∧ exec j t = .next { u with rsps := t.rsps ++ [q] }

/-! ## The Matrix container -/

/-- R31: the linear index is a bijection from the coordinates onto the bytes, in either order. -/
def Obligations.LinearIndexIsABijection : Prop :=
  (∀ rows cols r c, matIdx .rowMajor rows cols r c = r * cols + c ∧ matIdx .columnMajor rows cols r c = c * rows + r) ∧
  ∀ (o : StorageOrder) (rows cols : Nat),
    (∀ r < rows, ∀ c < cols, matIdx o rows cols r c < rows * cols) ∧
    ∀ k < rows * cols, ∃! p : Nat × Nat, p.1 < rows ∧ p.2 < cols ∧ matIdx o rows cols p.1 p.2 = k

/-- R32 (a zero dimension: U6, log entry 12): a fresh matrix has its shape and order and reads 0 everywhere. -/
def Obligations.MatrixInitIsZeroFilled : Prop :=
  ∀ (rows cols : Nat) (o : StorageOrder),
    (1 ≤ rows → 1 ≤ cols → ∃ m, MatrixVal.init rows cols o = .ok m ∧ m.valid = true ∧ m.rows = rows ∧ m.cols = cols ∧
      m.order = o ∧ ∀ r < rows, ∀ c < cols, m.get r c = .ok 0) ∧
    (rows = 0 ∨ cols = 0 → MatrixVal.init rows cols o = .error .noMeaning)

/-- R33: `get` and `set` are bounds-checked; a `set` is read back at its coordinates and seen at no others, in either
storage order. -/
def Obligations.MatrixGetAfterSet : Prop :=
  ∀ (m : MatrixVal) (r c : Nat) (v : Byte), m.valid = true →
    (m.rows ≤ r ∨ m.cols ≤ c →
      m.get r c = .error (.raised .outOfBounds) ∧ m.set r c v = .error (.raised .outOfBounds)) ∧
    (r < m.rows → c < m.cols → ∃ m', m.set r c v = .ok m' ∧ m'.valid = true ∧ m'.get r c = .ok v ∧
      ∀ r' < m.rows, ∀ c' < m.cols, (r', c') ≠ (r, c) → m'.get r' c' = m.get r' c')

/-- R34: rows and columns are read and overwritten whole, in either storage order. -/
def Obligations.MatrixRowsAndColumns : Prop :=
  ∀ (m : MatrixVal) (k : Nat) (values : List Byte), m.valid = true →
    (m.rows ≤ k → m.getRow k = .error (.raised .outOfBounds) ∧ m.setRow k values = .error (.raised .outOfBounds)) ∧
    (m.cols ≤ k → m.getCol k = .error (.raised .outOfBounds) ∧ m.setCol k values = .error (.raised .outOfBounds)) ∧
    (k < m.rows → values.length = m.cols → ∃ m', m.setRow k values = .ok m' ∧ m'.valid = true ∧
      m'.getRow k = .ok values ∧ ∀ r < m.rows, r ≠ k → m'.getRow r = m.getRow r) ∧
    (k < m.cols → values.length = m.rows → ∃ m', m.setCol k values = .ok m' ∧ m'.valid = true ∧
      m'.getCol k = .ok values ∧ ∀ c < m.cols, c ≠ k → m'.getCol c = m.getCol c) ∧
    (k < m.rows → ∃ vs : List Byte, m.getRow k = .ok vs ∧ vs.length = m.cols ∧
      ∀ c (h : c < vs.length), m.get k c = .ok vs[c]) ∧
    (k < m.cols → ∃ vs : List Byte, m.getCol k = .ok vs ∧ vs.length = m.rows ∧
      ∀ r (h : r < vs.length), m.get r k = .ok vs[r])

/-- R35: a slice is a row under RowMajor and a column under ColumnMajor; too few values fail and nothing is truncated. -/
def Obligations.MatrixSlicesFollowTheStorageOrder : Prop :=
  ∀ (m : MatrixVal) (k : Nat) (values : List Byte), m.valid = true →
    (m.order = .rowMajor → m.getSlice k = m.getRow k) ∧
    (m.order = .columnMajor → m.getSlice k = m.getCol k) ∧
    (m.count ≤ k ∨ values.length < m.span → m.setSlice k values = .error (.raised .outOfBounds)) ∧
    (k < m.count → values.length = m.span → ∃ m', m.setSlice k values = .ok m' ∧ m'.valid = true ∧
      m'.getSlice k = .ok values ∧ ∀ j < m.count, j ≠ k → m'.getSlice j = m.getSlice j)

/-- R38: the buffer is one Matrix value, and MGET is its `get`. -/
def Obligations.BufferIsOneMatrix : Prop :=
  ∀ s : State, CoreInv s → s.matv = true →
    (bufferMatrix s).valid = true ∧ (bufferMatrix s).order = .rowMajor ∧
    ∀ r c : Byte, r.toNat < s.mrows.toNat → c.toNat < s.mcols.toNat →
      ∃ v : Byte, (bufferMatrix s).get r.toNat c.toNat = .ok v ∧ Answers (.mget r c) s v ∧ v.toNat ≤ 1 ∧
        Memory.read? s.mat (r.toNat * s.mcols.toNat + c.toNat) = some v

/-- R60: a host's macro, on the matrix in the buffer, is answered with the bytes of its row or column in order; outside the
matrix it stops at its first command, which is answered with code 4. -/
def Obligations.HostMacrosReadRowsAndColumns : Prop :=
  ∀ (s : State) (k : Byte), CoreInv s → s.matv = true →
    let n := s.mrows.toNat
    let received : List Byte → State := fun vs => { s with rsps := s.rsps ++ vs.map fun v => BitVec.ofNat 16 v.toNat }
    (k.toNat < n →
      (∃ vs, (bufferMatrix s).getRow k.toNat = .ok vs ∧ runMacro (mgetRowMacro n k) s = .next (received vs)) ∧
      (∃ vs, (bufferMatrix s).getCol k.toNat = .ok vs ∧ runMacro (mgetColMacro n k) s = .next (received vs)) ∧
      (∃ vs, (bufferMatrix s).getSlice k.toNat = .ok vs ∧ runMacro (mgetSliceMacro n k) s = .next (received vs))) ∧
    (n ≤ k.toNat → ∀ macroOf ∈ [mgetRowMacro, mgetColMacro, mgetSliceMacro],
      runMacro (macroOf n k) s = .next (answered s 4 0))

/-! ## The helper functions -/

/-- R91: `countBits(v)` is the one k with `2^(k-1) <= v < 2^k`; 0 at 0. -/
def Obligations.CountBitsIsTheBitLength : Prop :=
  countBits 0 = 0 ∧ ∀ v : Nat, 1 ≤ v → ∀ k : Nat, 1 ≤ k → (countBits v = k ↔ 2 ^ (k - 1) ≤ v ∧ v < 2 ^ k)

/-- R92: the carry-less product of two bytes does not depend on their order and fits the 16-bit accumulator; of two
n-bit numbers it is below `2^(2n-1)`. -/
def Obligations.CarrylessProductFitsTheAccumulator : Prop :=
  (∀ a < 256, ∀ b < 256, clmul a b = clmul b a ∧ clmul a b < 2 ^ 16) ∧
  ∀ n, 1 ≤ n → n ≤ 7 → ∀ a < 2 ^ n, ∀ b < 2 ^ n, clmul a b < 2 ^ (2 * n - 1)

/-- R93: each iteration of the reduction shortens the accumulator, and the loop ends below ORDER, in any of the seven
fields and for any accumulator; below ORDER it does nothing. -/
def Obligations.ReductionEndsInTheField : Prop :=
  ∀ n, 1 ≤ n → n ≤ 7 → ∀ acc : Nat,
    (2 ^ n ≤ acc → countBits (reduceStep (fieldOf n) acc) < countBits acc ∧
      reduce (fieldOf n) acc = reduce (fieldOf n) (reduceStep (fieldOf n) acc)) ∧
    (acc < 2 ^ n → reduce (fieldOf n) acc = acc) ∧
    reduce (fieldOf n) acc < 2 ^ n

/-- R94: for n = 1 the integer product and the general path give the same four results. -/
def Obligations.ProductInTheTwoElementField : Prop :=
  ∀ x < 2, ∀ y < 2, fmul (fieldOf 1) x y = .ok (x * y) ∧ reduce (fieldOf 1) (clmul x y) = x * y
end

