-- ==== Sys2Proof/Laws/Decode.lean ====
section
/-! SUPPORT. The fields of a packed command word, and a word put together again from its fields (R52). -/

namespace Sys2Proof

theorem packWord_toNat (op rsv b a : Byte) :
    (packWord op rsv b a).toNat = op.toNat * 2 ^ 24 + rsv.toNat * 2 ^ 16 + b.toNat * 2 ^ 8 + a.toNat := by
  have := op.isLt; have := rsv.isLt; have := b.isLt; have := a.isLt
  simp only [packWord, BitVec.toNat_ofNat]
  exact Nat.mod_eq_of_lt (by omega)

@[simp] theorem opField_packWord (op rsv b a : Byte) : opField (packWord op rsv b a) = op := by
  have := op.isLt; have := rsv.isLt; have := b.isLt; have := a.isLt
  apply BitVec.eq_of_toNat_eq
  simp only [opField, packWord_toNat, BitVec.toNat_ofNat]
  omega

@[simp] theorem rsvField_packWord (op rsv b a : Byte) : rsvField (packWord op rsv b a) = rsv := by
  have := op.isLt; have := rsv.isLt; have := b.isLt; have := a.isLt
  apply BitVec.eq_of_toNat_eq
  simp only [rsvField, packWord_toNat, BitVec.toNat_ofNat]
  omega

@[simp] theorem bField_packWord (op rsv b a : Byte) : bField (packWord op rsv b a) = b := by
  have := op.isLt; have := rsv.isLt; have := b.isLt; have := a.isLt
  apply BitVec.eq_of_toNat_eq
  simp only [bField, packWord_toNat, BitVec.toNat_ofNat]
  omega

@[simp] theorem aField_packWord (op rsv b a : Byte) : aField (packWord op rsv b a) = a := by
  have := op.isLt; have := rsv.isLt; have := b.isLt; have := a.isLt
  apply BitVec.eq_of_toNat_eq
  simp only [aField, packWord_toNat, BitVec.toNat_ofNat]
  omega

/-- No bit of a word is outside its four fields. -/
theorem packWord_fields (w : CmdWord) : packWord (opField w) (rsvField w) (bField w) (aField w) = w := by
  have := w.isLt
  apply BitVec.eq_of_toNat_eq
  simp only [packWord_toNat, opField, rsvField, bField, aField, BitVec.toNat_ofNat]
  omega

end Sys2Proof
end

