-- ==== Sys2Proof/Laws/State.lean ====
section
/-! SUPPORT. What each update of the state leaves in each field. -/

namespace Sys2Proof.Machine

variable (s : State) (r : RspWord) (F : FieldCfg) (m : MatrixVal)

@[simp] theorem deliver_cfgv : (deliver r s).cfgv = s.cfgv := rfl
@[simp] theorem deliver_exp : (deliver r s).exp = s.exp := rfl
@[simp] theorem deliver_order : (deliver r s).order = s.order := rfl
@[simp] theorem deliver_divisor : (deliver r s).divisor = s.divisor := rfl
@[simp] theorem deliver_matv : (deliver r s).matv = s.matv := rfl
@[simp] theorem deliver_mrows : (deliver r s).mrows = s.mrows := rfl
@[simp] theorem deliver_mcols : (deliver r s).mcols = s.mcols := rfl
@[simp] theorem deliver_morder : (deliver r s).morder = s.morder := rfl
@[simp] theorem deliver_mat : (deliver r s).mat = s.mat := rfl
@[simp] theorem deliver_host : (deliver r s).host = s.host := rfl
@[simp] theorem deliver_rsps : (deliver r s).rsps = s.rsps ++ [r] := rfl
@[simp] theorem deliver_field : (deliver r s).field = s.field := rfl

@[simp] theorem writeField_cfgv : (writeField F s).cfgv = true := rfl
@[simp] theorem writeField_exp : (writeField F s).exp = BitVec.ofNat 3 F.exp := rfl
@[simp] theorem writeField_order : (writeField F s).order = BitVec.ofNat 8 F.order := rfl
@[simp] theorem writeField_divisor : (writeField F s).divisor = BitVec.ofNat 8 F.divisor := rfl
@[simp] theorem writeField_matv : (writeField F s).matv = s.matv := rfl
@[simp] theorem writeField_mrows : (writeField F s).mrows = s.mrows := rfl
@[simp] theorem writeField_mcols : (writeField F s).mcols = s.mcols := rfl
@[simp] theorem writeField_morder : (writeField F s).morder = s.morder := rfl
@[simp] theorem writeField_mat : (writeField F s).mat = s.mat := rfl
@[simp] theorem writeField_host : (writeField F s).host = s.host := rfl
@[simp] theorem writeField_rsps : (writeField F s).rsps = s.rsps := rfl

@[simp] theorem writeMatrix_cfgv : (writeMatrix m s).cfgv = s.cfgv := rfl
@[simp] theorem writeMatrix_exp : (writeMatrix m s).exp = s.exp := rfl
@[simp] theorem writeMatrix_order : (writeMatrix m s).order = s.order := rfl
@[simp] theorem writeMatrix_divisor : (writeMatrix m s).divisor = s.divisor := rfl
@[simp] theorem writeMatrix_matv : (writeMatrix m s).matv = true := rfl
@[simp] theorem writeMatrix_mrows : (writeMatrix m s).mrows = BitVec.ofNat 3 m.rows := rfl
@[simp] theorem writeMatrix_mcols : (writeMatrix m s).mcols = BitVec.ofNat 3 m.cols := rfl
@[simp] theorem writeMatrix_morder : (writeMatrix m s).morder = m.order := rfl
@[simp] theorem writeMatrix_mat : (writeMatrix m s).mat = Memory.writeRun [] 0 m.data := rfl
@[simp] theorem writeMatrix_host : (writeMatrix m s).host = s.host := rfl
@[simp] theorem writeMatrix_rsps : (writeMatrix m s).rsps = s.rsps := rfl
@[simp] theorem writeMatrix_field : (writeMatrix m s).field = s.field := rfl

@[simp] theorem field_exp : s.field.exp = s.exp.toNat := rfl
@[simp] theorem field_order : s.field.order = s.order.toNat := rfl
@[simp] theorem field_divisor : s.field.divisor = s.divisor.toNat := rfl

end Sys2Proof.Machine
end

