-- ==== Sys2Proof/Laws/FieldMath.lean ====
section
/-! SUPPORT. The field functions: when the guards pass, and the fields INIT makes. -/

namespace Sys2Proof.Machine

theorem validate_inside {F : FieldCfg} {v : Nat} (h : v < F.order) : validate F v = .ok v := if_pos h

theorem validate_outside {F : FieldCfg} {v : Nat} (h : F.order ≤ v) : validate F v = .error .invalidNumber :=
  if_neg (by omega)

/-- `validate` returns its argument or raises one error. -/
theorem validate_ok_iff {F : FieldCfg} {v w : Nat} : validate F v = .ok w ↔ v < F.order ∧ w = v := by
  unfold validate
  split <;> simp_all [eq_comm]

/-- `fmul` rejects an operand outside the field before anything else. -/
theorem fmul_outside_left {F : FieldCfg} {x y : Nat} (h : F.order ≤ x) : fmul F x y = .error .invalidNumber := by
  simp only [fmul, validate_outside h]
  rfl

theorem fmul_outside_right {F : FieldCfg} {x y : Nat} (hx : x < F.order) (h : F.order ≤ y) :
    fmul F x y = .error .invalidNumber := by
  simp only [fmul, validate_inside hx, validate_outside h]
  rfl

/-- With both operands in the field, `fmul` is the guarded reduced product. -/
theorem fmul_inside {F : FieldCfg} {x y : Nat} (hx : x < F.order) (hy : y < F.order) :
    fmul F x y = validate F (if F.exp = 1 then x * y else reduce F (clmul x y)) := by
  simp only [fmul, validate_inside hx, validate_inside hy]
  rfl

/-- Under the configuration invariant, a configured field is one of the seven of R17. -/
theorem field_eq_fieldOf {s : State} (h : Configured s) :
    s.field = fieldOf s.exp.toNat ∧ 1 ≤ s.exp.toNat ∧ s.exp.toNat ≤ 7 := by
  obtain ⟨h1, h7, ho, hd⟩ := h.2 h.1
  exact ⟨by simp [State.field, fieldOf, ho, hd], h1, h7⟩

/-- A candidate outside the search changes nothing: the search ends at the first match. -/
theorem finvSearch_cons {F : FieldCfg} {x cand p : Nat} {rest : List Nat} (h : fmul F x cand = .ok p) :
    finvSearch F x (cand :: rest) = if p = 1 then validate F cand else finvSearch F x rest := by
  simp only [finvSearch, h]
  rfl

end Sys2Proof.Machine
end

