-- ==== Sys2Proof/Laws/Memory.lean ====
section
/-! SUPPORT. The laws of byte memory: a read after a write, and the canonical form kept by every operation. -/

namespace Sys2Proof.Machine

/-- A read after a write: the written byte at its index, every other byte as before. -/
theorem Memory.read?_write (m : Memory) (x : Nat) (v : Byte) (y : Nat) :
    (m.write x v).read? y = if y = x then some v else m.read? y := by
  induction m with
  | nil => simp [Memory.write, Memory.read?]
  | cons cell m ih =>
    obtain ⟨a, u⟩ := cell
    unfold Memory.write
    split
    · simp [Memory.read?]
    · split
      · subst x
        by_cases h : y = a <;> simp [Memory.read?, h]
      · by_cases h : y = a
        · subst y
          simp only [Memory.read?, if_true]
          rw [if_neg (by omega)]
        · simp [Memory.read?, h, ih]

/-- A read after a run of writes. -/
theorem Memory.read?_writeRun (vs : List Byte) (m : Memory) (x y : Nat) :
    (m.writeRun x vs).read? y = if x ≤ y ∧ y < x + vs.length then vs[y - x]? else m.read? y := by
  induction vs generalizing m x with
  | nil => simp [Memory.writeRun]
  | cons v vs ih =>
    rw [Memory.writeRun, ih, Memory.read?_write]
    rcases Nat.lt_trichotomy y x with h | h | h
    · rw [if_neg (by omega), if_neg (by omega), if_neg (by omega)]
    · subst h
      rw [if_neg (by omega), if_pos rfl, if_pos (by simp)]
      simp
    · have : y - x = (y - (x + 1)) + 1 := by omega
      by_cases h2 : y < x + 1 + vs.length
      · rw [if_pos (by omega), if_pos (by simp; omega), this, List.getElem?_cons_succ]
      · rw [if_neg (by omega), if_neg (by omega), if_neg (by simp; omega)]

theorem Memory.wfFrom_mono {lo lo' : Nat} (m : Memory) (h : lo' ≤ lo) (hm : Memory.wfFrom lo m = true) :
    Memory.wfFrom lo' m = true := by
  cases m with
  | nil => rfl
  | cons cell m =>
    obtain ⟨a, u⟩ := cell
    simp only [Memory.wfFrom, Bool.and_eq_true, decide_eq_true_eq] at hm ⊢
    exact ⟨⟨by omega, hm.1.2⟩, hm.2⟩

theorem Memory.wfFrom_write (m : Memory) (lo x : Nat) (v : Byte) (hlo : lo ≤ x) (hx : x < matCap)
    (hm : Memory.wfFrom lo m = true) : Memory.wfFrom lo (m.write x v) = true := by
  induction m generalizing lo with
  | nil => simp [Memory.write, Memory.wfFrom, hlo, hx]
  | cons cell m ih =>
    obtain ⟨a, u⟩ := cell
    simp only [Memory.wfFrom, Bool.and_eq_true, decide_eq_true_eq] at hm
    unfold Memory.write
    split
    · simp only [Memory.wfFrom, Bool.and_eq_true, decide_eq_true_eq]
      exact ⟨⟨hlo, hx⟩, ⟨by omega, hm.1.2⟩, hm.2⟩
    · split
      · subst x
        simp only [Memory.wfFrom, Bool.and_eq_true, decide_eq_true_eq]
        exact hm
      · simp only [Memory.wfFrom, Bool.and_eq_true, decide_eq_true_eq]
        exact ⟨hm.1, ih (a + 1) (by omega) hm.2⟩

/-- A write inside the buffer keeps the canonical form. -/
theorem Memory.wf_write (m : Memory) (x : Nat) (v : Byte) (hx : x < matCap) (hm : m.wf = true) :
    (m.write x v).wf = true :=
  Memory.wfFrom_write m 0 x v (Nat.zero_le x) hx hm

/-- A run of writes inside the buffer keeps the canonical form. -/
theorem Memory.wf_writeRun (vs : List Byte) (m : Memory) (x : Nat) (hx : x + vs.length ≤ matCap)
    (hm : m.wf = true) : (m.writeRun x vs).wf = true := by
  induction vs generalizing m x with
  | nil => exact hm
  | cons v vs ih =>
    simp only [List.length_cons] at hx
    exact ih _ _ (by omega) (Memory.wf_write m x v (by omega) hm)

/-- The memory after reset is in canonical form. -/
theorem Memory.wf_reset : Memory.wf State.reset.mat = true := rfl

/-- Writing past the last listed byte lists one more. -/
theorem Memory.write_past (m : Memory) (x : Nat) (v : Byte) (h : ∀ cell ∈ m, cell.1 < x) :
    m.write x v = m ++ [(x, v)] := by
  induction m with
  | nil => rfl
  | cons cell m ih =>
    obtain ⟨a, u⟩ := cell
    have ha : a < x := h (a, u) (by simp)
    rw [Memory.write, if_neg (by omega), if_neg (by omega), ih fun c hc => h c (by simp [hc])]
    rfl

theorem Memory.writeRun_past (vs : List Byte) (m : Memory) (x : Nat) (h : ∀ cell ∈ m, cell.1 < x) :
    m.writeRun x vs = m ++ (List.range' x vs.length).zip vs := by
  induction vs generalizing m x with
  | nil => simp [Memory.writeRun]
  | cons v vs ih =>
    rw [Memory.writeRun, Memory.write_past m x v h, ih]
    · simp [List.range'_succ]
    · intro cell hc
      rcases List.mem_append.1 hc with hc | hc
      · exact Nat.lt_succ_of_lt (h cell hc)
      · simp only [List.mem_singleton] at hc
        subst hc
        exact Nat.lt_succ_self x

/-- A buffer filled from index 0 lists exactly the bytes it was filled with. -/
theorem Memory.fill_eq (vs : List Byte) :
    Memory.writeRun [] 0 vs = (List.range vs.length).zip vs := by
  rw [Memory.writeRun_past vs [] 0 (by simp), List.nil_append, List.range_eq_range']

end Sys2Proof.Machine
end

