-- ==== Sys2Proof/Laws/Matrix.lean ====
section
/-! SUPPORT. The Matrix container: what a call keeps. -/

namespace Sys2Proof.Machine

/-- A successful `set` keeps the shape and the storage order. -/
theorem MatrixVal.set_shape {m m' : MatrixVal} {r c : Nat} {v : Byte} (h : m.set r c v = .ok m') :
    m'.rows = m.rows ∧ m'.cols = m.cols ∧ m'.order = m.order ∧ m'.data.length = m.data.length := by
  unfold MatrixVal.set at h
  split at h
  · cases h
  · cases h
    simp

/-- A coordinate inside the shape is accepted. -/
theorem MatrixVal.set_inside (m : MatrixVal) (r c : Nat) (v : Byte) (hr : r < m.rows) (hc : c < m.cols) :
    m.set r c v = .ok { m with data := m.data.set (matIdx m.order m.rows m.cols r c) v } :=
  if_neg (by omega)

/-- A coordinate outside the shape raises `OutOfBoundsError` (R33). -/
theorem MatrixVal.set_outside (m : MatrixVal) (r c : Nat) (v : Byte) (h : m.rows ≤ r ∨ m.cols ≤ c) :
    m.set r c v = .error (.raised .outOfBounds) :=
  if_pos h

/-- Writing a whole column keeps the shape and the storage order. -/
theorem MatrixVal.setColFrom_shape {vs : List Byte} {m m' : MatrixVal} {c k : Nat}
    (h : m.setColFrom c k vs = .ok m') :
    m'.rows = m.rows ∧ m'.cols = m.cols ∧ m'.order = m.order ∧ m'.data.length = m.data.length := by
  induction vs generalizing m k with
  | nil => cases h; simp
  | cons v vs ih =>
    unfold MatrixVal.setColFrom at h
    cases hs : m.set k c v with
    | error e => simp [hs] at h
    | ok m1 =>
      simp only [hs] at h
      have h1 := MatrixVal.set_shape hs
      have h2 := ih h
      exact ⟨h2.1.trans h1.1, h2.2.1.trans h1.2.1, h2.2.2.1.trans h1.2.2.1, h2.2.2.2.trans h1.2.2.2⟩

/-- A column that fits is accepted. -/
theorem MatrixVal.setColFrom_inside (vs : List Byte) (m : MatrixVal) (c k : Nat) (hc : c < m.cols)
    (hk : k + vs.length ≤ m.rows) : ∃ m', m.setColFrom c k vs = .ok m' := by
  induction vs generalizing m k with
  | nil => exact ⟨m, rfl⟩
  | cons v vs ih =>
    simp only [List.length_cons] at hk
    unfold MatrixVal.setColFrom
    rw [MatrixVal.set_inside m k c v (by omega) hc]
    exact ih _ (k + 1) hc (by simp; omega)

end Sys2Proof.Machine
end

