-- ==== Sys2Proof/Laws/Ops.lean ====
section
/-! SUPPORT. What each shared operation can do, said once. -/

namespace Sys2Proof.Machine

/-- Raising an error adds the response of its code and changes nothing else. -/
theorem raise_eq (e : Err) (s : State) : raise e s = .next (answered s (errCode e).toNat 0) := by
  cases e <;> rfl

/-- A successful end adds the response with that result byte and changes nothing else. -/
theorem respondOk_eq (v : Nat) (s : State) (hv : v < 256) : respondOk v s = .next (answered s 0 v) := by
  have h : rspWord okCode (BitVec.ofNat 8 v) = BitVec.ofNat 16 (0 * 256 + v) := by
    apply BitVec.eq_of_toNat_eq
    have h0 : okCode.toNat = 0 := rfl
    simp only [rspWord, h0, BitVec.toNat_ofNat]
    omega
  rw [respondOk, h]
  rfl

/-- `complete` has two ends: the new state with `OK`, or the old state with an error. -/
theorem complete_ok (s t : State) (v : Nat) : complete s (.ok (t, v)) = respondOk v t := rfl
theorem complete_error (s : State) (e : Err) : complete s (.error e) = raise e s := rfl
theorem answer_ok (s : State) (v : Nat) : answer s (.ok v) = respondOk v s := rfl
theorem answer_error (s : State) (e : Err) : answer s (.error e) = raise e s := rfl

/-- A command that ends by `answer` writes the response port and nothing else. -/
theorem answer_cases (s : State) (x : Except Err Nat) : ∃ r, answer s x = .next (deliver r s) := by
  cases x with
  | ok v => exact ⟨_, rfl⟩
  | error e => exact ⟨_, rfl⟩

theorem requireField_eq (s : State) :
    requireField s = if s.cfgv then .ok () else .error .notConstructed := rfl

theorem requireMatrix_eq (s : State) :
    requireMatrix s = if s.matv then .ok () else .error .notConstructed := rfl

/-- The buffer answers for every index it has. -/
theorem memRead_inside (s : State) (addr : Nat) (h : addr < matCap) : memRead s addr = .ok (s.mat.read addr) :=
  if_pos h

/-- Two 3-bit shape registers give no index of 49 or more, in either storage order: in every state, the bounds check of
MGET is enough. -/
theorem matIdx_inside (o : StorageOrder) (rows cols : BitVec 3) (r c : Nat) (hr : r < rows.toNat)
    (hc : c < cols.toNat) : matIdx o rows.toNat cols.toNat r c < matCap := by
  have h1 := rows.isLt
  have h2 := cols.isLt
  generalize rows.toNat = x at *
  generalize cols.toNat = y at *
  unfold matCap
  cases o <;> simp only [matIdx]
  · have : r * y ≤ 6 * 7 := Nat.mul_le_mul (by omega) (by omega)
    omega
  · have : c * x ≤ 6 * 7 := Nat.mul_le_mul (by omega) (by omega)
    omega

/-- The ways TOMATRIX can end once its columns are known. -/
theorem storeMatrix_cases (s : State) (x : Except MatrixStop MatrixVal) :
    (∃ m, x = .ok m ∧ storeMatrix s x = respondOk 0 (writeMatrix m s)) ∨
      (∃ e, storeMatrix s x = raise e s) ∨ storeMatrix s x = .refused .containerUnstated := by
  match x with
  | .ok m => exact .inl ⟨m, rfl, rfl⟩
  | .error (.raised e) => exact .inr (.inl ⟨e, rfl⟩)
  | .error .noMeaning => exact .inr (.inr rfl)

/-- A word runs as the command it decodes to. -/
theorem runWord_ok {w : CmdWord} {i : Instr} (s : State) (h : decode w = .ok i) : runWord w s = exec i s := by
  simp [runWord, h]

/-- An illegal word raises `IllegalCommandError`. -/
theorem runWord_error {w : CmdWord} {e : DecodeError} (s : State) (h : decode w = .error e) :
    runWord w s = raise .illegalCommand s := by
  simp [runWord, h, illegalWord]

end Sys2Proof.Machine
end

