-- ==== Sys2Proof/Laws/PerInstr.lean ====
section
/-! SUPPORT. Family WordFields: the four fields of a command's word are its opcode, zero, and its two operand fields
(R52, R53, R55). -/

namespace Sys2Proof.Laws.WordFields

/-- What the word of `i` holds in each field. -/
def Statement (i : Instr) : Prop :=
  opField (encode i) = i.opcode ∧ rsvField (encode i) = 0 ∧ bField (encode i) = i.bOperand ∧
    aField (encode i) = i.aOperand

/-- One proof for every command: packing loses no field. -/
theorem ofPacking (i : Instr) : Statement i := by simp [Statement, encode]

theorem init (n : Byte) : Statement (.init n) := ofPacking _
theorem validate (a : Byte) : Statement (.validate a) := ofPacking _
theorem add (a b : Byte) : Statement (.add a b) := ofPacking _
theorem neg (a : Byte) : Statement (.neg a) := ofPacking _
theorem sub (a b : Byte) : Statement (.sub a b) := ofPacking _
theorem mul (a b : Byte) : Statement (.mul a b) := ofPacking _
theorem div (a b : Byte) : Statement (.div a b) := ofPacking _
theorem invert (a : Byte) : Statement (.invert a) := ofPacking _
theorem toMatrix (a : Byte) : Statement (.toMatrix a) := ofPacking _
theorem mget (r c : Byte) : Statement (.mget r c) := ofPacking _
theorem rdcfg (sel : Byte) : Statement (.rdcfg sel) := ofPacking _

end Sys2Proof.Laws.WordFields
end

