-- ==== Sys2Proof/Tests/Slice0.lean ====
section
/-! SUPPORT. Tests on values the spec gives (`30_encoding.md` R59, `95_test_vectors.md`), each about one step, and for each
statement with hypotheses one theorem that shows values meeting them. -/

namespace Sys2Proof.Tests

open Sys2Proof.Machine

/-! ## Small states -/

/-- A core configured with these numbers, no matrix made yet. -/
def configured (e o d : Nat) : State :=
  { State.reset with cfgv := true, exp := BitVec.ofNat 3 e, order := BitVec.ofNat 8 o, divisor := BitVec.ofNat 8 d }

/-- n = 1 (R17). -/
abbrev field1 : State := configured 1 2 3
/-- n = 3 (R17). -/
abbrev field3 : State := configured 3 8 11
/-- n = 7 (R17). -/
abbrev field7 : State := configured 7 128 131

/-- n = 3 with the matrix of the element 2 in the buffer, by the example of R110. -/
def matrix3 : State :=
  { field3 with
    matv := true, mrows := 3, mcols := 3
    mat := [(0, 0), (1, 0), (2, 1), (3, 1), (4, 0), (5, 1), (6, 0), (7, 1), (8, 0)] }

/-- The word at the command port. -/
def presented (s : State) (w : CmdWord) : State := { s with host := [.command w] }

/-- The response to one word. -/
def reply (s : State) (w : CmdWord) : Option RspWord :=
  match step (presented s w) with
  | .next t => t.rsps.getLast?
  | _ => none

/-- The state after one word. -/
def after (s : State) (w : CmdWord) : Option State :=
  match step (presented s w) with
  | .next t => some t
  | _ => none

/-- The 2 by 3 matrix of W9 after its `setRow`, and the one in the other order after its `setCol`. -/
def rows23 : MatrixVal := ⟨2, 3, .rowMajor, [1, 2, 3, 0, 0, 0]⟩
def cols23 : MatrixVal := ⟨2, 3, .columnMajor, [1, 2, 0, 0, 0, 0]⟩

/-! ## Well-formedness: the one check, and a term it refuses -/

theorem test_rdcfg_seven_is_ill_formed : (Instr.rdcfg 7).wellFormed = false := by decide
theorem test_rdcfg_six_is_well_formed : (Instr.rdcfg 6).wellFormed = true := by decide

/-! ## Decoding: each command's word, written field by field from R52 and R55 as op, rsv, b, a -/

theorem test_decode_init : decode (0b00000001#8 ++ 0b00000000#8 ++ 0b00000000#8 ++ 0b00000011#8) = .ok (.init 3) := rfl
theorem test_decode_validate :
    decode (0b00000010#8 ++ 0b00000000#8 ++ 0b00000000#8 ++ 0b11111111#8) = .ok (.validate 255) := rfl
theorem test_decode_add : decode (0b00000011#8 ++ 0b00000000#8 ++ 0b00000011#8 ++ 0b00000101#8) = .ok (.add 5 3) := rfl
theorem test_decode_neg : decode (0b00000100#8 ++ 0b00000000#8 ++ 0b00000000#8 ++ 0b00000101#8) = .ok (.neg 5) := rfl
theorem test_decode_sub : decode (0b00000101#8 ++ 0b00000000#8 ++ 0b00000011#8 ++ 0b00000101#8) = .ok (.sub 5 3) := rfl
theorem test_decode_mul : decode (0b00000110#8 ++ 0b00000000#8 ++ 0b00000011#8 ++ 0b00000101#8) = .ok (.mul 5 3) := rfl
theorem test_decode_div : decode (0b00000111#8 ++ 0b00000000#8 ++ 0b00000101#8 ++ 0b00000100#8) = .ok (.div 4 5) := rfl
theorem test_decode_invert :
    decode (0b00001000#8 ++ 0b00000000#8 ++ 0b00000000#8 ++ 0b00000101#8) = .ok (.invert 5) := rfl
theorem test_decode_toMatrix :
    decode (0b00001001#8 ++ 0b00000000#8 ++ 0b00000000#8 ++ 0b00000010#8) = .ok (.toMatrix 2) := rfl
theorem test_decode_mget : decode (0b00001010#8 ++ 0b00000000#8 ++ 0b00000001#8 ++ 0b00000010#8) = .ok (.mget 2 1) := rfl
theorem test_decode_rdcfg : decode (0b00001011#8 ++ 0b00000000#8 ++ 0b00000000#8 ++ 0b00000010#8) = .ok (.rdcfg 2) := rfl

/-- The illegal words of `95_test_vectors.md` section 2.7. -/
theorem test_decode_illegal :
    ([0x00000000, 0x0C000000, 0xFFFFFFFF, 0x06010305, 0x08000105, 0x01000103, 0x0B000103] : List CmdWord).map
      (reply State.reset) = List.replicate 7 (some 0x0600) := rfl

/-! ## One step each, on the vectors of `95_test_vectors.md` -/

theorem test_init_seven : after State.reset 0x01000007 =
    some { State.reset with cfgv := true, exp := 7, order := 128, divisor := 131, rsps := [0x0000] } := by decide
theorem test_init_eight_fails : after field7 0x01000008 = some { field7 with rsps := [0x0100] } := by decide
theorem test_validate_bounds :
    reply field7 0x0200007F = some 0x007F ∧ reply field7 0x02000080 = some 0x0200 ∧
      reply State.reset 0x02000000 = some 0x0700 := by decide
theorem test_add_has_no_carry : reply field3 0x03000107 = some 0x0006 ∧ reply field3 0x03000800 = some 0x0200 := by decide
theorem test_add_seven : reply field7 0x0300557F = some 0x002A := by decide
theorem test_neg : reply field3 0x04000005 = some 0x0005 ∧ reply field3 0x04000009 = some 0x0200 := by decide
theorem test_sub : reply field3 0x05000503 = some 0x0006 ∧ reply field3 0x05000109 = some 0x0200 := by decide
theorem test_mul_two_reductions : reply field3 0x06000506 = some 0x0003 ∧ reply field3 0x06000801 = some 0x0200 := by decide
theorem test_mul_largest : reply field7 0x06007F7F = some 0x002B ∧ reply field7 0x06001B64 = some 0x0051 := by decide
theorem test_div : reply field3 0x07000504 = some 0x0003 ∧ reply field3 0x07000500 = some 0x0000 := by decide
theorem test_div_error_order :
    reply field3 0x07000009 = some 0x0300 ∧ reply field3 0x07000109 = some 0x0200 ∧
      reply field3 0x07000901 = some 0x0200 := by decide
theorem test_invert : reply field3 0x08000005 = some 0x0002 ∧ reply field1 0x08000001 = some 0x0001 := by decide
theorem test_invert_errors :
    reply field3 0x08000000 = some 0x0300 ∧ reply field3 0x08000008 = some 0x0200 ∧
      reply State.reset 0x08000000 = some 0x0700 := by decide
theorem test_toMatrix : after field3 0x09000002 = some { matrix3 with rsps := [0x0000] } := by decide
theorem test_toMatrix_failure_keeps_the_matrix :
    after matrix3 0x09000008 = some { matrix3 with rsps := [0x0200] } := by decide
theorem test_mget_reads_row_then_column :
    reply matrix3 0x0A000201 = some 0x0001 ∧ reply matrix3 0x0A000102 = some 0x0001 ∧
      reply matrix3 0x0A000202 = some 0x0000 := by decide
theorem test_mget_errors :
    reply matrix3 0x0A000003 = some 0x0400 ∧ reply matrix3 0x0A000300 = some 0x0400 ∧
      reply field3 0x0A000000 = some 0x0700 := by decide
theorem test_rdcfg :
    reply field7 0x0B000001 = some 0x0080 ∧ reply field7 0x0B000002 = some 0x0083 ∧
      reply matrix3 0x0B000003 = some 0x0003 ∧ reply matrix3 0x0B000004 = some 0x0003 := by decide
theorem test_rdcfg_errors :
    reply State.reset 0x0B000000 = some 0x0700 ∧ reply field3 0x0B000004 = some 0x0700 ∧
      reply State.reset 0x0B000007 = some 0x0600 := by decide

/-- Section 2.6: `MGETROW 1` and `MGETCOL 2` of the matrix of 2, and `MGETROW 3`, which stops at its first command. -/
theorem test_macros :
    runMacro (mgetRowMacro 3 1) matrix3 = .next { matrix3 with rsps := [1, 0, 1] } ∧
    runMacro (mgetColMacro 3 2) matrix3 = .next { matrix3 with rsps := [1, 1, 0] } ∧
    runMacro (mgetRowMacro 3 3) matrix3 = .next { matrix3 with rsps := [0x0400] } := ⟨rfl, rfl, rfl⟩

/-- R140: reset gives the reset state, whatever is in progress, and no response. -/
theorem test_reset_keeps_nothing :
    step { matrix3 with host := [.reset (some 0x09000002)] } = .next State.reset := rfl

/-! ## The Matrix container: W9 and section 2.8 -/

theorem test_setRow : (MatrixVal.init 2 3 .rowMajor >>= fun m => m.setRow 0 [1, 2, 3]) = .ok rows23 := rfl
theorem test_setCol : (MatrixVal.init 2 3 .columnMajor >>= fun m => m.setCol 0 [1, 2]) = .ok cols23 := rfl
theorem test_rowMajor_reads :
    rows23.getRow 0 = .ok [1, 2, 3] ∧ rows23.getSlice 0 = .ok [1, 2, 3] ∧ rows23.getCol 2 = .ok [3, 0] := ⟨rfl, rfl, rfl⟩
theorem test_columnMajor_reads :
    cols23.getCol 0 = .ok [1, 2] ∧ cols23.getSlice 0 = .ok [1, 2] ∧ cols23.getRow 0 = .ok [1, 0, 0] := ⟨rfl, rfl, rfl⟩
theorem test_setSlice_too_short : rows23.setSlice 0 [9, 9] = .error (.raised .outOfBounds) := rfl

/-! ## Witnesses: for each statement with hypotheses, values that meet them, clause by clause at the boundaries -/

theorem witness_EncodeOfDecodeIsIdentity : decode 0x0B0000FF = .ok (.rdcfg 255) := rfl

theorem witness_IllegalCommandsAnswerCodeSix :
    (presented State.reset 0x0C000000).host = .command 0x0C000000 :: [] ∧
    (∀ row ∈ opcodeRows, (0x0C000000 : CmdWord) &&& row.mask ≠ row.pattern) ∧
    7 ≤ (7 : Byte).toNat ∧ 7 ≤ (255 : Byte).toNat := by decide

theorem witness_StepRunsTheDecodedCommand :
    (presented State.reset 0x01000003).host = .command 0x01000003 :: [] ∧ decode 0x01000003 = .ok (.init 3) :=
  ⟨rfl, rfl⟩

theorem witness_PresentedWordRunsNext : decodeTableWord 32 0x06000305 = some (.mul 5 3) := by decide

theorem witness_EveryCommandGetsOneResponse :
    (∀ s ∈ [State.reset, field1, field7], s.cfgv = true → s.exp ≠ 0) ∧ State.reset.host = [] ∧
    (presented field7 0xFFFFFFFF).host = .command 0xFFFFFFFF :: [] ∧
    ({ field7 with host := [.reset none] } : State).host = .reset none :: [] := by decide

theorem witness_StepStopsOnlyWithoutAnExponent :
    step (presented { State.reset with cfgv := true } 0x09000000) = .refused .containerUnstated ∧
    ({ State.reset with cfgv := true } : State).exp = 0 := ⟨rfl, rfl⟩

theorem witness_ResetAbandonsTheCommandInProgress :
    ({ matrix3 with host := [.reset (some 0x09000002), .reset none] } : State).host =
      .reset (some 0x09000002) :: [.reset none] := by decide

/-- The two states differ in every register left unspecified. -/
theorem witness_UnspecifiedRegistersCannotBeObserved :
    SameToHost State.reset
      { State.reset with exp := 5, order := 9, divisor := 1, mrows := 2, mcols := 3, morder := .columnMajor,
                         mat := [(0, 7)] } ∧
    step State.reset = .next State.reset := ⟨by decide, rfl⟩

theorem witness_InitConstructsTheField :
    (∀ p ∈ [((1 : Nat), (2 : Nat), (3 : Nat)), (7, 128, 131)],
      p ∈ [(1, 2, 3), (2, 4, 7), (3, 8, 11), (4, 16, 19), (5, 32, 37), (6, 64, 67), (7, 128, 131)]) ∧
    (0 : Byte).toNat = 0 ∧ 8 ≤ (8 : Byte).toNat ∧ 8 ≤ (255 : Byte).toNat := by decide

theorem witness_ValidateAnswersItsOperand :
    State.reset.cfgv = false ∧ field1.cfgv = true ∧ Element field1 0 ∧ Element field1 1 ∧ ¬ Element field1 2 ∧
    field7.cfgv = true ∧ Element field7 127 ∧ ¬ Element field7 128 := by decide

theorem witness_NegIsTheIdentity :
    State.reset.cfgv = false ∧ field3.cfgv = true ∧ Element field3 0 ∧ Element field3 7 ∧ ¬ Element field3 8 := by decide

theorem witness_AddIsExclusiveOr :
    State.reset.cfgv = false ∧ Configured field7 ∧ Element field7 127 ∧ Element field7 0 ∧
    ¬ (Element field7 128 ∧ Element field7 0) ∧ ¬ (Element field7 0 ∧ Element field7 128) := by decide

theorem witness_SubIsExclusiveOr :
    State.reset.cfgv = false ∧ Configured field3 ∧ Element field3 0 ∧ Element field3 7 ∧
    ¬ (Element field3 8 ∧ Element field3 0) ∧ ¬ (Element field3 0 ∧ Element field3 8) := by decide

theorem witness_MulAnswersTheReducedProduct :
    State.reset.cfgv = false ∧ Configured field1 ∧ Element field1 1 ∧ Configured field7 ∧ Element field7 127 ∧
    Element field7 0 ∧ ¬ (Element field7 128 ∧ Element field7 0) ∧ ¬ (Element field7 0 ∧ Element field7 128) := by decide

theorem witness_MulIsPolynomialMultiplication :
    Configured field1 ∧ Element field1 1 ∧ Configured field7 ∧ Element field7 0 ∧ Element field7 127 := by decide

theorem witness_InvertAnswersTheInverse :
    State.reset.cfgv = false ∧ field3.cfgv = true ∧ (0 : Byte).toNat = 0 ∧ Configured field3 ∧ ¬ Element field3 8 ∧
    Element field3 1 ∧ Element field3 7 ∧ (1 : Byte).toNat ≠ 0 ∧ (7 : Byte).toNat ≠ 0 ∧
    (1 : Byte).toNat < (2 : Byte).toNat := by decide

theorem witness_EveryNonzeroElementHasOneInverse :
    Configured field3 ∧ Element field3 5 ∧ (5 : Byte).toNat ≠ 0 ∧ Element field3 2 := by decide

theorem witness_DivMultipliesByTheInverse :
    State.reset.cfgv = false ∧ field3.cfgv = true ∧ (0 : Byte).toNat = 0 ∧ Configured field3 ∧ (1 : Byte).toNat ≠ 0 ∧
    ¬ (Element field3 8 ∧ Element field3 1) ∧ ¬ (Element field3 0 ∧ Element field3 8) ∧ Element field3 0 ∧
    Element field3 7 := by decide

theorem witness_DivThenMulRestores :
    Configured field7 ∧ Element field7 0 ∧ Element field7 127 ∧ (127 : Byte).toNat ≠ 0 := by decide

theorem witness_ToMatrixBuildsTheMatrix :
    State.reset.cfgv = false ∧ Configured field1 ∧ Element field1 0 ∧ ¬ Element field1 2 ∧ Configured field7 ∧
    Element field7 127 ∧ ¬ Element field7 128 ∧ 0 < field1.exp.toNat ∧ 6 < field7.exp.toNat := by decide

theorem witness_MgetReadsTheBuffer :
    State.reset.matv = false ∧ matrix3.matv = true ∧ matrix3.mrows.toNat ≤ (3 : Byte).toNat ∧
    matrix3.mcols.toNat ≤ (255 : Byte).toNat ∧ (2 : Byte).toNat < matrix3.mrows.toNat ∧
    (0 : Byte).toNat < matrix3.mcols.toNat := by decide

theorem witness_RdcfgReadsTheSelectedRegister :
    field3.cfgv = true ∧ State.reset.cfgv = false ∧ matrix3.matv = true ∧ matrix3.morder = .rowMajor ∧
    ({ matrix3 with morder := .columnMajor } : State).morder = .columnMajor ∧ State.reset.matv = false ∧
    7 ≤ (7 : Byte).toNat ∧ 7 ≤ (255 : Byte).toNat := by decide

theorem witness_AdditionLaws :
    Configured field7 ∧ Element field7 0 ∧ Element field7 1 ∧ Element field7 127 := by decide

/-- Both disjuncts of the last law: a product that is 0, and one that is not. -/
theorem witness_MultiplicationLaws :
    Configured field7 ∧ Element field7 0 ∧ Element field7 1 ∧ Element field7 127 ∧
    Answers (.mul 0 127) field7 0 := ⟨by decide, by decide, by decide, by decide, rfl⟩

theorem witness_InverseTables :
    field1.cfgv = true ∧ field1.field = fieldOf 1 ∧ ([1] : List Byte)[0]? = some 1 ∧
    field3.cfgv = true ∧ field3.field = fieldOf 3 ∧ ([1, 5, 6, 7, 2, 3, 4] : List Byte)[6]? = some 4 := by decide

theorem witness_WorkedTraceGivesFour : field3.cfgv = true ∧ field3.field = fieldOf 3 := by decide

/-- The last premise, that two matrices agree, is met by a matrix and itself. -/
theorem witness_MatrixColumnsSpellTheProducts :
    Configured field3 ∧ Element field3 2 ∧ 2 < field3.exp.toNat ∧
    ∀ r < field3.exp.toNat, ∀ c < field3.exp.toNat, matrixEntry matrix3 r c = matrixEntry matrix3 r c :=
  ⟨by decide, by decide, by decide, fun _ _ _ _ => rfl⟩

theorem witness_MatrixTimesVectorIsTheProduct :
    Configured field3 ∧ Element field3 6 ∧ Element field3 5 ∧ 2 < field3.exp.toNat := by decide

theorem witness_MatrixOfSumsAndProducts :
    Configured field7 ∧ Element field7 127 ∧ Element field7 2 ∧ 6 < field7.exp.toNat := by decide

theorem witness_MgetReadsWhatToMatrixBuilt :
    Configured field3 ∧ Element field3 2 ∧ (2 : Byte).toNat < field3.exp.toNat ∧
    (0 : Byte).toNat < field3.exp.toNat := by decide

theorem witness_StepKeepsTheInvariant :
    CoreInv (presented matrix3 0x0A000201) ∧
    step (presented matrix3 0x0A000201) = .next { matrix3 with rsps := [0x0001] } := ⟨by decide, rfl⟩

theorem witness_ResultsLieInTheField :
    ConfigOk field3 ∧ Answers (.validate 7) field3 7 ∧ Answers (.neg 0) field3 0 ∧ Answers (.invert 5) field3 2 ∧
    Answers (.add 7 1) field3 6 ∧ Answers (.sub 5 3) field3 6 ∧ Answers (.mul 7 7) field3 3 ∧
    Answers (.div 4 5) field3 3 ∧ exec (.toMatrix 2) field3 = .next { matrix3 with rsps := [0] } ∧
    Responds field3 { matrix3 with rsps := [0] } 0 := ⟨by decide, rfl, rfl, rfl, rfl, rfl, rfl, rfl, rfl, rfl⟩

theorem witness_FailedCommandWritesNothing :
    exec (.toMatrix 8) matrix3 = .next { matrix3 with rsps := [0x0200] } ∧
    Responds matrix3 { matrix3 with rsps := [0x0200] } 0x0200 ∧ (0x0200 : RspWord).toNat / 256 ≠ 0 :=
  ⟨rfl, rfl, by decide⟩

theorem witness_MatrixOutlivesInit : Answers (.mget 1 2) matrix3 1 ∧ Answers (.mget 0 0) matrix3 0 := ⟨rfl, rfl⟩

theorem witness_ToMatrixTouchesOnlyTheMatrix :
    exec (.toMatrix 2) field3 = .next { matrix3 with rsps := [0] } ∧ Responds field3 { matrix3 with rsps := [0] } 0 ∧
    exec (.toMatrix 8) matrix3 = .next { matrix3 with rsps := [0x0200] } ∧
    Responds matrix3 { matrix3 with rsps := [0x0200] } 0x0200 := ⟨rfl, rfl, rfl, rfl⟩

theorem witness_OnlyMatrixReadsDependOnTheMatrix :
    (field3.cfgv = matrix3.cfgv ∧ field3.exp = matrix3.exp ∧ field3.order = matrix3.order ∧
      field3.divisor = matrix3.divisor ∧ exec (.toMatrix 2) field3 = .next { matrix3 with rsps := [0] }) ∧
    (matrix3.matv = ({ matrix3 with exp := 1 } : State).matv ∧ matrix3.mrows = ({ matrix3 with exp := 1 } : State).mrows ∧
      matrix3.mcols = ({ matrix3 with exp := 1 } : State).mcols ∧
      matrix3.morder = ({ matrix3 with exp := 1 } : State).morder ∧
      matrix3.mat = ({ matrix3 with exp := 1 } : State).mat ∧
      (Instr.rdcfg 6) ∈ [Instr.rdcfg 4, .rdcfg 5, .rdcfg 6]) :=
  ⟨⟨rfl, rfl, rfl, rfl, rfl⟩, rfl, rfl, rfl, rfl, rfl, by decide⟩

theorem witness_NotConstructedFollowsTheValidBits :
    State.reset.cfgv = false ∧ State.reset.matv = false ∧ matrix3.cfgv = true ∧ matrix3.matv = true ∧
    (3 : Byte).toNat = 3 ∧ 7 ≤ (7 : Byte).toNat ∧ (∀ f rest, (presented matrix3 0x01000008).host ≠ .reset f :: rest) ∧
    step (presented matrix3 0x01000008) = .next { matrix3 with rsps := [0x0100] } :=
  ⟨rfl, rfl, rfl, rfl, rfl, by decide, by intro f rest h; simp [presented] at h, rfl⟩

theorem witness_ErrorsLeaveNoTrace :
    exec (.invert 0) field3 = .next { field3 with rsps := [0x0300] } ∧
    Responds field3 { field3 with rsps := [0x0300] } 0x0300 ∧ (0x0300 : RspWord).toNat / 256 ≠ 0 ∧
    exec (.mul 5 3) field3 = .next { field3 with rsps := [0x0004] } := ⟨rfl, rfl, by decide, rfl⟩

theorem witness_LinearIndexIsABijection : (0 : Nat) < 1 ∧ (1 : Nat) < 2 ∧ (2 : Nat) < 3 ∧ (5 : Nat) < 2 * 3 := by decide

theorem witness_MatrixInitIsZeroFilled : (1 : Nat) ≤ 1 ∧ (0 : Nat) < 1 ∧ ((0 : Nat) = 0 ∨ (3 : Nat) = 0) := by decide

theorem witness_MatrixGetAfterSet :
    rows23.valid = true ∧ cols23.valid = true ∧ rows23.rows ≤ 2 ∧ cols23.cols ≤ 3 ∧ 1 < rows23.rows ∧ 2 < rows23.cols ∧
    ((0, 2) : Nat × Nat) ≠ (1, 2) := by decide

theorem witness_MatrixRowsAndColumns :
    rows23.valid = true ∧ rows23.rows ≤ 2 ∧ rows23.cols ≤ 3 ∧ 1 < rows23.rows ∧ 2 < rows23.cols ∧
    ([7, 8, 9] : List Byte).length = rows23.cols ∧ ([7, 8] : List Byte).length = rows23.rows ∧ (0 : Nat) ≠ 1 := by decide

theorem witness_MatrixSlicesFollowTheStorageOrder :
    rows23.valid = true ∧ rows23.order = .rowMajor ∧ cols23.valid = true ∧ cols23.order = .columnMajor ∧
    rows23.count ≤ 2 ∧ ([9, 9] : List Byte).length < rows23.span ∧ 2 < cols23.count ∧
    ([9, 9] : List Byte).length = cols23.span ∧ (0 : Nat) ≠ 2 := by decide

theorem witness_BufferIsOneMatrix :
    CoreInv matrix3 ∧ matrix3.matv = true ∧ (2 : Byte).toNat < matrix3.mrows.toNat ∧
    (2 : Byte).toNat < matrix3.mcols.toNat := by decide

theorem witness_HostMacrosReadRowsAndColumns :
    CoreInv matrix3 ∧ matrix3.matv = true ∧ (0 : Byte).toNat < matrix3.mrows.toNat ∧
    (2 : Byte).toNat < matrix3.mrows.toNat ∧ matrix3.mrows.toNat ≤ (3 : Byte).toNat ∧
    matrix3.mrows.toNat ≤ (255 : Byte).toNat := by decide

theorem witness_CountBitsIsTheBitLength : (1 : Nat) ≤ 8190 ∧ (1 : Nat) ≤ 13 ∧ countBits 8190 = 13 := by decide

theorem witness_CarrylessProductFitsTheAccumulator : (255 : Nat) < 256 ∧ 1 ≤ 7 ∧ 7 ≤ 7 ∧ (127 : Nat) < 2 ^ 7 := by decide

theorem witness_ReductionEndsInTheField : 1 ≤ 7 ∧ 7 ≤ 7 ∧ (2 : Nat) ^ 7 ≤ 128 ∧ (127 : Nat) < 2 ^ 7 := by decide

theorem witness_ProductInTheTwoElementField : (0 : Nat) < 2 ∧ (1 : Nat) < 2 := by decide

end Sys2Proof.Tests
end

section
/-! SUPPORT. Noninterference of the field and the matrix (R25): what a command reads of the state decides its response. -/

namespace Sys2Proof.Machine

variable {s t s' : State}

/-- Two states with the same field registers (R13). -/
structure SameField (s t : State) : Prop where
  cfgv : s.cfgv = t.cfgv
  exp : s.exp = t.exp
  order : s.order = t.order
  divisor : s.divisor = t.divisor

/-- Two states with the same matrix registers and buffer (R20). -/
structure SameMatrix (s t : State) : Prop where
  matv : s.matv = t.matv
  mrows : s.mrows = t.mrows
  mcols : s.mcols = t.mcols
  morder : s.morder = t.morder
  mat : s.mat = t.mat

theorem SameField.field_eq (h : SameField s t) : s.field = t.field := by
  simp [State.field, h.exp, h.order, h.divisor]

theorem SameField.requireField_congr (h : SameField s t) : requireField s = requireField t := by
  simp [requireField_eq, h.cfgv]

theorem SameMatrix.requireMatrix_congr (h : SameMatrix s t) : requireMatrix s = requireMatrix t := by
  simp [requireMatrix_eq, h.matv]

theorem SameMatrix.mgetIndex_congr (h : SameMatrix s t) (r c : Nat) : mgetIndex s r c = mgetIndex t r c := by
  simp [mgetIndex, h.requireMatrix_congr, h.mrows, h.mcols, h.morder]

/-- What `answer` sends depends on the result alone, so equal results give equal responses in any two states. -/
theorem answer_congr {x y : Except Err Nat} (h : x = y) :
    ∃ r, answer s x = .next (deliver r s) ∧ answer t y = .next (deliver r t) := by
  subst h
  cases x with
  | ok v => exact ⟨_, rfl, rfl⟩
  | error e => exact ⟨_, rfl, rfl⟩

/-- No error's response is the all-zero word, which is `OK 0`. -/
theorem rspWord_errCode_ne_zero (e : Err) : rspWord (errCode e) 0 ≠ 0 := by
  cases e <;> decide

/-! ### Commands that read the field only -/

/-- The outcome `o` from `t` matches the end `s'` of a run from `s`: the same response, and
after `OK 0` the same matrix. -/
def EndsAlike (s t s' : State) (o : Host.Outcome State Fault Refusal) : Prop :=
  ∃ (t' : State) (r : RspWord), o = .next t' ∧ Responds s s' r ∧ Responds t t' r ∧ (r = 0 → SameMatrix s' t')

theorem raise_endsAlike {e : Err} (h : raise e s = .next s') : EndsAlike s t s' (raise e t) := by
  cases h
  exact ⟨_, _, rfl, rfl, rfl, fun h0 => absurd h0 (rspWord_errCode_ne_zero e)⟩

/-- The finished matrix replaces the old one whole, so nothing of the old one is left to differ. -/
theorem respondOk_writeMatrix_endsAlike {m : MatrixVal} (h : respondOk 0 (writeMatrix m s) = .next s') :
    EndsAlike s t s' (respondOk 0 (writeMatrix m t)) := by
  cases h
  exact ⟨_, _, rfl, rfl, rfl, fun _ => ⟨rfl, rfl, rfl, rfl, rfl⟩⟩

theorem storeMatrix_endsAlike {x : Except MatrixStop MatrixVal} (h : storeMatrix s x = .next s') :
    EndsAlike s t s' (storeMatrix t x) := by
  match x with
  | .ok _ => exact respondOk_writeMatrix_endsAlike h
  | .error (.raised _) => exact raise_endsAlike h
  | .error .noMeaning => cases h

theorem toMatrix_endsAlike {a : Byte} (hst : SameField s t) (h : exec (.toMatrix a) s = .next s') :
    EndsAlike s t s' (exec (.toMatrix a) t) := by
  simp only [exec, execToMatrix, hst.requireField_congr, hst.field_eq] at h ⊢
  split at h
  · exact storeMatrix_endsAlike h
  · exact raise_endsAlike h

/-- The outcomes `o` from `s` and `p` from `t` are next states with the same response. -/
def RespondAlike (s t : State) (o p : Host.Outcome State Fault Refusal) : Prop :=
  ∃ (s' t' : State) (r : RspWord), o = .next s' ∧ p = .next t' ∧ Responds s s' r ∧ Responds t t' r

theorem answer_respondAlike {x y : Except Err Nat} (h : x = y) : RespondAlike s t (answer s x) (answer t y) := by
  obtain ⟨r, hs, ht⟩ := answer_congr h
  exact ⟨_, _, r, hs, ht, rfl, rfl⟩

/-- INIT looks at its operand alone. -/
theorem execInit_respondAlike (n : Byte) : RespondAlike s t (execInit n s) (execInit n t) := by
  unfold execInit
  split
  · exact ⟨_, _, _, rfl, rfl, rfl, rfl⟩
  · exact ⟨_, _, _, rfl, rfl, rfl, rfl⟩

/-- R25, first half: the field commands but INIT and TOMATRIX end by `answer`, with a result
computed from the field registers. -/
theorem exec_respondAlike (hst : SameField s t) {i : Instr} (hm : ∀ r c, i ≠ .mget r c) (hr : ∀ sel, i ≠ .rdcfg sel)
    (ht : ∀ a, i ≠ .toMatrix a) : RespondAlike s t (exec i s) (exec i t) := by
  have hreq := hst.requireField_congr
  have hfield := hst.field_eq
  cases i with
  | init n => exact execInit_respondAlike n
  | validate | add | neg | sub | mul | div | invert => exact answer_respondAlike (by rw [hreq, hfield])
  | toMatrix a => exact absurd rfl (ht a)
  | mget r c => exact absurd rfl (hm r c)
  | rdcfg sel => exact absurd rfl (hr sel)

/-! ### Commands that read the matrix only -/

/-- The index MGET reads is one of the buffer's 49. -/
theorem mgetIndex_inside {r c addr : Nat} (h : mgetIndex s r c = .ok addr) : addr < matCap := by
  simp only [mgetIndex, requireMatrix_eq] at h
  split at h
  · change (if _ then _ else _) = _ at h
    split at h
    · cases h
    · cases h
      exact matIdx_inside _ _ _ _ _ (by omega) (by omega)
  · cases h

/-- MGET never faults: it ends by `answer` with the byte at its index, or with the error of its checks. -/
theorem execMget_eq_answer (r c : Byte) (s : State) :
    execMget r c s =
      answer s ((mgetIndex s (operand r) (operand c)).map fun addr => (s.mat.read addr).toNat) := by
  unfold execMget
  cases h : mgetIndex s (operand r) (operand c) with
  | error e => rfl
  | ok addr => simp only [memRead_inside s addr (mgetIndex_inside h)]; rfl

/-- R25, second half: the answers of MGET and of RDCFG 4, 5, 6 depend on the matrix registers and the buffer alone. -/
theorem matrixCommand_responds_same (hst : SameMatrix s t) {i : Instr}
    (hi : (∃ r c, i = .mget r c) ∨ i ∈ [Instr.rdcfg 4, .rdcfg 5, .rdcfg 6]) :
    ∃ r, exec i s = .next (deliver r s) ∧ exec i t = .next (deliver r t) := by
  simp only [List.mem_cons, List.not_mem_nil, or_false] at hi
  have hreq := hst.requireMatrix_congr
  rcases hi with ⟨r, c, rfl⟩ | rfl | rfl | rfl
  · simp only [exec, execMget_eq_answer]
    exact answer_congr (by rw [hst.mgetIndex_congr, hst.mat])
  · exact answer_congr (show readRegister s .mrows = readRegister t .mrows by simp [readRegister, hreq, hst.mrows])
  · exact answer_congr (show readRegister s .mcols = readRegister t .mcols by simp [readRegister, hreq, hst.mcols])
  · exact answer_congr (show readRegister s .morder = readRegister t .morder by simp [readRegister, hreq, hst.morder])

/-- Settles O43 by `toMatrix_endsAlike` for TOMATRIX, `exec_respondAlike` for the other commands of the first half, and
`matrixCommand_responds_same` for the second. -/
theorem onlyMatrixReadsDependOnTheMatrix : Obligations.OnlyMatrixReadsDependOnTheMatrix := by
  refine ⟨fun s t s' i hcfgv hexp horder hdivisor hm hr hex => ?_,
    fun s t i hmatv hmrows hmcols hmorder hmat hi =>
      matrixCommand_responds_same ⟨hmatv, hmrows, hmcols, hmorder, hmat⟩ hi⟩
  have hst : SameField s t := ⟨hcfgv, hexp, horder, hdivisor⟩
  by_cases ht : ∃ a, i = .toMatrix a
  · obtain ⟨a, rfl⟩ := ht
    obtain ⟨t', r, hex', hs, hrt, hsame⟩ := toMatrix_endsAlike hst hex
    refine ⟨t', r, hex', hs, hrt, fun _ _ h0 => ?_⟩
    obtain ⟨hmatv, hmrows, hmcols, hmorder, hmat⟩ := hsame h0
    exact ⟨hmatv, hmrows, hmcols, hmorder, hmat⟩
  · obtain ⟨u, t', r, hexs, hext, hs, hrt⟩ := exec_respondAlike hst hm hr fun a h => ht ⟨a, h⟩
    cases hex.symm.trans hexs
    exact ⟨t', r, hext, hs, hrt, fun a h => absurd ⟨a, h⟩ ht⟩

end Sys2Proof.Machine
end

section
/-! SUPPORT. Command words written as numbers (R52), and the answers of INIT, VALIDATE and RDCFG (R70, R73, R74). -/

namespace Sys2Proof

/-! ### Decoding -/

/-- The decoder reads every command back from the four fields of its word (R52, R55). -/
theorem decode_encode (i : Instr) : decode (encode i) = .ok i := by
  obtain ⟨hop, hrsv, hb, ha⟩ := Laws.WordFields.ofPacking i
  unfold decode
  rw [if_neg (not_not.mpr hrsv), hop]
  cases i with
  | add | sub | mul | div | mget => exact congrArg Except.ok (congrArg₂ _ ha hb)
  | init | validate | neg | invert | toMatrix | rdcfg => exact (if_pos hb).trans (congrArg Except.ok (congrArg _ ha))

/-- The word of a command whose `b` field is 0 is `op * 2^24 + a` (R52). -/
theorem encode_of_bOperand_zero {i : Instr} (h : i.bOperand = 0) :
    encode i = BitVec.ofNat 32 (i.opcode.toNat * 2 ^ 24 + i.aOperand.toNat) := by
  simp [encode, packWord, h]

/-- The word `op * 2^24 + a` decodes to the one-operand command it spells; `base` is `op * 2^24` as a literal. -/
theorem decode_oneOperandWord {i : Instr} {base : Nat} (hbase : i.opcode.toNat * 2 ^ 24 = base) (h : i.bOperand = 0) :
    decode (BitVec.ofNat 32 (base + i.aOperand.toNat)) = .ok i := by
  rw [← hbase, ← encode_of_bOperand_zero h, decode_encode]

namespace Machine

variable {s : State}

/-! ### Commands that end by `answer` -/

theorem answer_ok_byte (s : State) (v : Byte) : answer s (.ok v.toNat) = .next (answered s 0 v.toNat) :=
  respondOk_eq _ s v.isLt

theorem answer_error_eq (s : State) (e : Err) : answer s (.error e) = .next (answered s (errCode e).toNat 0) :=
  raise_eq e s

theorem requireField_of_cfgv (h : s.cfgv = true) : requireField s = .ok () := if_pos h

theorem requireField_of_not_cfgv (h : s.cfgv = false) : requireField s = .error .notConstructed := by
  simp [requireField_eq, h]

theorem requireMatrix_of_matv (h : s.matv = true) : requireMatrix s = .ok () := if_pos h

theorem requireMatrix_of_not_matv (h : s.matv = false) : requireMatrix s = .error .notConstructed := by
  simp [requireMatrix_eq, h]

/-! ### INIT -/

theorem exec_init_inside {n : Byte} (h1 : 1 ≤ n.toNat) (h7 : n.toNat ≤ 7) (s : State) :
    exec (.init n) s = .next (answered (writeField (fieldOf n.toNat) s) 0 0) := by
  have hn : ¬ (operand n < nMin ∨ nMax < operand n) := by simp only [operand, nMin, nMax]; omega
  simp only [exec, execInit, if_neg hn, complete_ok]
  exact respondOk_eq 0 _ (by decide)

theorem exec_init_outside {n : Byte} (h : n.toNat = 0 ∨ 8 ≤ n.toNat) (s : State) : Fails (.init n) s 1 := by
  have hn : operand n < nMin ∨ nMax < operand n := by simp only [operand, nMin, nMax]; omega
  simp only [Fails, exec, execInit, if_pos hn, complete_error]
  exact raise_eq .invalidExponent s

/-- The seven rows of R70's table are the numbers `fieldOf` computes. -/
theorem fieldOf_table :
    ∀ p ∈ [(1, 2, 3), (2, 4, 7), (3, 8, 11), (4, 16, 19), (5, 32, 37), (6, 64, 67), (7, 128, 131)],
      1 ≤ p.1 ∧ p.1 ≤ 7 ∧ fieldOf p.1 = ⟨p.1, p.2.1, p.2.2⟩ := by decide

/-- Settles O13: the range check of INIT decides between `writeField` of the table's row and error 1. -/
theorem initConstructsTheField : Obligations.InitConstructsTheField := by
  refine fun s => ⟨fun n => decode_oneOperandWord (i := .init n) (by simp [Instr.opcode]) rfl, fun p hp => ?_,
    fun n hn => exec_init_outside hn s⟩
  obtain ⟨h1, h7, hrow⟩ := fieldOf_table p hp
  have hn : (BitVec.ofNat 8 p.1).toNat = p.1 := by
    rw [BitVec.toNat_ofNat]
    omega
  rw [exec_init_inside (by omega) (by omega), hn, hrow]
  rfl

/-! ### VALIDATE -/

/-- Past the check of `CFGV`, VALIDATE answers what `validate` says (R72, R73). -/
theorem exec_validate_of_cfgv (h : s.cfgv = true) (a : Byte) :
    exec (.validate a) s = answer s (validate s.field a.toNat) := by
  simp only [exec, execValidate, requireField_of_cfgv h]
  rfl

theorem exec_validate_of_not_cfgv (h : s.cfgv = false) (a : Byte) : Fails (.validate a) s 7 := by
  simp only [Fails, exec, execValidate, requireField_of_not_cfgv h]
  exact answer_error_eq s .notConstructed

/-- Settles O14: the check of `CFGV`, then the two ends of `validate`. -/
theorem validateAnswersItsOperand : Obligations.ValidateAnswersItsOperand := by
  refine fun s a => ⟨decode_oneOperandWord (i := .validate a) (by simp [Instr.opcode]) rfl,
    fun hc => exec_validate_of_not_cfgv hc a, fun hc ha => ?_, fun hc ha => ?_⟩
  · rw [Answers, exec_validate_of_cfgv hc, validate_inside ha, answer_ok_byte]
  · rw [Fails, exec_validate_of_cfgv hc, validate_outside (Nat.le_of_not_lt ha), answer_error_eq]
    rfl

/-! ### RDCFG -/

theorem exec_rdcfg_named {sel : Byte} {x : Selector} (h : selectorOf sel = some x) (s : State) :
    exec (.rdcfg sel) s = answer s (readRegister s x) := by
  simp only [exec, execRdcfg, h]

/-- A selector whose register reads as the byte `v` answers `v`. -/
theorem answers_rdcfg {sel : Byte} {x : Selector} {v : Byte} (h : selectorOf sel = some x)
    (hv : readRegister s x = .ok v.toNat) : Answers (.rdcfg sel) s v := by
  rw [Answers, exec_rdcfg_named h, hv, answer_ok_byte]

/-- A selector whose register is behind a valid bit that is 0 answers status 7. -/
theorem fails_rdcfg {sel : Byte} {x : Selector} (h : selectorOf sel = some x)
    (hx : readRegister s x = .error .notConstructed) : Fails (.rdcfg sel) s 7 := by
  rw [Fails, exec_rdcfg_named h, hx, answer_error_eq]
  rfl

/-- The byte 7 and every byte above it name no register (R74). -/
theorem selectorOf_eq_none {sel : Byte} (h : 7 ≤ sel.toNat) : selectorOf sel = none := by
  unfold selectorOf
  split
  case h_8 => rfl
  all_goals omega

theorem fails_rdcfg_unnamed {sel : Byte} (h : 7 ≤ sel.toNat) (s : State) : Fails (.rdcfg sel) s 6 := by
  simp only [Fails, exec, execRdcfg, selectorOf_eq_none h]
  exact answer_error_eq s .illegalCommand

theorem selectorOf_field :
    ∀ sel ∈ ([0, 1, 2] : List Byte), ∃ x ∈ [Selector.exp, .order, .divisor], selectorOf sel = some x := by decide

theorem selectorOf_matrix :
    ∀ sel ∈ ([4, 5, 6] : List Byte), ∃ x ∈ [Selector.mrows, .mcols, .morder], selectorOf sel = some x := by decide

/-- Behind `CFGV = 1` each register of the field reads as its result byte; `EXP` is 3 bits wide and gains zeros. -/
theorem readRegister_of_cfgv (h : s.cfgv = true) :
    readRegister s .exp = .ok (s.exp.setWidth 8).toNat ∧ readRegister s .order = .ok s.order.toNat ∧
      readRegister s .divisor = .ok s.divisor.toNat := by
  simp only [readRegister, requireField_of_cfgv h, BitVec.toNat_setWidth_of_le (show 3 ≤ 8 by decide)]
  exact ⟨rfl, rfl, rfl⟩

theorem readRegister_of_not_cfgv (h : s.cfgv = false) :
    ∀ x ∈ [Selector.exp, .order, .divisor], readRegister s x = .error .notConstructed := by
  simp only [List.forall_mem_cons, readRegister, requireField_of_not_cfgv h]
  exact ⟨rfl, rfl, rfl, List.forall_mem_nil _⟩

/-- Behind `MATV = 1` each register of the matrix reads as its result byte; the shape registers are 3 bits wide. -/
theorem readRegister_of_matv (h : s.matv = true) :
    readRegister s .mrows = .ok (s.mrows.setWidth 8).toNat ∧ readRegister s .mcols = .ok (s.mcols.setWidth 8).toNat ∧
      readRegister s .morder = .ok (orderBit s.morder) := by
  simp only [readRegister, requireMatrix_of_matv h, BitVec.toNat_setWidth_of_le (show 3 ≤ 8 by decide)]
  exact ⟨rfl, rfl, rfl⟩

theorem readRegister_of_not_matv (h : s.matv = false) :
    ∀ x ∈ [Selector.mrows, .mcols, .morder], readRegister s x = .error .notConstructed := by
  simp only [List.forall_mem_cons, readRegister, requireMatrix_of_not_matv h]
  exact ⟨rfl, rfl, rfl, List.forall_mem_nil _⟩

/-- STATUS fits a byte, whatever the two valid bits are (R26). -/
theorem statusView_byte (s : State) : (BitVec.ofNat 8 (s.matv.toNat * 2 + s.cfgv.toNat)).toNat = statusView s := by
  have hm := s.matv.toNat_lt
  have hc := s.cfgv.toNat_lt
  rw [BitVec.toNat_ofNat, statusView]
  omega

/-- Settles O27: each selector by the register it names, behind that register's valid bit; 7 and above name none. -/
theorem rdcfgReadsTheSelectedRegister : Obligations.RdcfgReadsTheSelectedRegister := by
  refine fun s => ⟨fun sel => decode_oneOperandWord (i := .rdcfg sel) (by simp [Instr.opcode]) rfl,
    fun hc => ?_, fun hc sel hsel => ?_, ?_, fun hm => ?_, fun hm sel hsel => ?_,
    fun sel hsel => fails_rdcfg_unnamed hsel s⟩
  · obtain ⟨hexp, horder, hdivisor⟩ := readRegister_of_cfgv hc
    exact ⟨answers_rdcfg rfl hexp, answers_rdcfg rfl horder, answers_rdcfg rfl hdivisor⟩
  · obtain ⟨x, hx, hname⟩ := selectorOf_field sel hsel
    exact fails_rdcfg hname (readRegister_of_not_cfgv hc x hx)
  · exact answers_rdcfg (x := .status) rfl (by rw [statusView_byte]; rfl)
  · obtain ⟨hrows, hcols, horder⟩ := readRegister_of_matv hm
    exact ⟨answers_rdcfg rfl hrows, answers_rdcfg rfl hcols,
      fun ho => answers_rdcfg rfl (by rw [horder, ho]; rfl), fun ho => answers_rdcfg rfl (by rw [horder, ho]; rfl)⟩
  · obtain ⟨x, hx, hname⟩ := selectorOf_matrix sel hsel
    exact fails_rdcfg hname (readRegister_of_not_matv hm x hx)

end Machine
end Sys2Proof
end

section
/-! SUPPORT. ADD, NEG and SUB (R80 to R82): the exclusive-or of two elements, and the commands that reduce to another. -/

namespace Sys2Proof

/-- The word of a command is `op * 2^24 + b * 2^8 + a` (R52). -/
theorem encode_eq_ofNat (i : Instr) :
    encode i = BitVec.ofNat 32 (i.opcode.toNat * 2 ^ 24 + i.bOperand.toNat * 2 ^ 8 + i.aOperand.toNat) := by
  simp [encode, packWord]

/-- The word `op * 2^24 + b * 256 + a` decodes to the command it spells; `base` is `op * 2^24` as a literal. -/
theorem decode_twoOperandWord {i : Instr} {base : Nat} (hbase : i.opcode.toNat * 2 ^ 24 = base) :
    decode (BitVec.ofNat 32 (base + i.bOperand.toNat * 256 + i.aOperand.toNat)) = .ok i := by
  subst hbase
  exact encode_eq_ofNat i ▸ decode_encode i

namespace Machine

variable {s : State} {a b : Byte}

/-! ### Guards in sequence -/

/-- Checking an operand a second time changes nothing. -/
theorem validate_bind_validate (F : FieldCfg) (v : Nat) (k : Nat → Except Err Nat) :
    (validate F v >>= fun w => validate F w >>= k) = validate F v >>= k := by
  rcases Nat.lt_or_ge v F.order with h | h
  · simp only [validate_inside h]
    exact congrArg (· >>= k) (validate_inside h)
  · rw [validate_outside h]
    rfl

/-- Every failed check raises the same error, so two operands may be checked in either order. -/
theorem validate_bind_comm (F : FieldCfg) (v w : Nat) (k : Nat → Nat → Except Err Nat) :
    (validate F w >>= fun y => validate F v >>= fun x => k x y) =
      validate F v >>= fun x => validate F w >>= fun y => k x y := by
  rcases Nat.lt_or_ge v F.order with hv | hv
  · rw [validate_inside hv]
    rfl
  · rw [validate_outside hv]
    rcases Nat.lt_or_ge w F.order with hw | hw
    · rw [validate_inside hw]
      rfl
    · rw [validate_outside hw]
      rfl

/-! ### ADD -/

/-- The elements of a configured field are the numbers of `EXP` bits, so exclusive-or stays among them (R80). -/
theorem element_xor (hs : Configured s) (ha : Element s a) (hb : Element s b) : Element s (a ^^^ b) := by
  obtain ⟨hc, hok⟩ := hs
  obtain ⟨-, -, ho, -⟩ := hok hc
  rw [Nat.one_shiftLeft] at ho
  simp only [Element, ho, BitVec.toNat_xor] at ha hb ⊢
  exact Nat.xor_lt_two_pow ha hb

theorem exec_add_of_not_cfgv (h : s.cfgv = false) (a b : Byte) : Fails (.add a b) s 7 := by
  simp only [Fails, exec, execAdd, requireField_of_not_cfgv h]
  exact answer_error_eq s .notConstructed

/-- Past the check of `CFGV`, ADD validates its operands and revalidates their exclusive-or (R80). -/
theorem exec_add_of_cfgv (h : s.cfgv = true) (a b : Byte) :
    exec (.add a b) s = answer s (validate s.field a.toNat >>= fun x => validate s.field b.toNat >>= fun y =>
      validate s.field (x ^^^ y)) := by
  simp only [exec, execAdd, requireField_of_cfgv h]
  rfl

theorem answers_add (hs : Configured s) (ha : Element s a) (hb : Element s b) : Answers (.add a b) s (a ^^^ b) := by
  have hxor : validate s.field (a.toNat ^^^ b.toNat) = .ok (a ^^^ b).toNat := by
    rw [← BitVec.toNat_xor, validate_inside (element_xor hs ha hb)]
  rw [Answers, exec_add_of_cfgv hs.1, validate_inside ha, validate_inside hb]
  exact (congrArg (answer s) hxor).trans (answer_ok_byte s _)

theorem fails_add_outside (hc : s.cfgv = true) (h : ¬ (Element s a ∧ Element s b)) : Fails (.add a b) s 2 := by
  rw [Fails, exec_add_of_cfgv hc]
  rcases Nat.lt_or_ge a.toNat s.order.toNat with ha | ha
  · have hb : s.field.order ≤ b.toNat := Nat.le_of_not_lt fun hb => h ⟨ha, hb⟩
    rw [validate_inside ha, validate_outside hb]
    exact answer_error_eq s .invalidNumber
  · rw [validate_outside ha]
    exact answer_error_eq s .invalidNumber

/-- Settles O16: the check of `CFGV`, then the two checks of the operands; `element_xor` passes the third. -/
theorem addIsExclusiveOr : Obligations.AddIsExclusiveOr :=
  fun _ a b => ⟨decode_twoOperandWord (i := .add a b) (by simp [Instr.opcode]), fun hc => exec_add_of_not_cfgv hc a b,
    answers_add, fails_add_outside⟩

/-! ### SUB and NEG -/

/-- SUB does what ADD does: it checks the operands in the other order and `b` twice (R82). -/
theorem exec_sub_eq_exec_add (a b : Byte) (s : State) : exec (.sub a b) s = exec (.add a b) s := by
  have hchecks : (validate s.field b.toNat >>= fun y => validate s.field a.toNat >>= fun x =>
        validate s.field y >>= fun y => validate s.field (x ^^^ y)) =
      validate s.field a.toNat >>= fun x => validate s.field b.toNat >>= fun y => validate s.field (x ^^^ y) := by
    rw [validate_bind_comm]
    simp only [validate_bind_validate]
  exact congrArg (fun checks => answer s (requireField s >>= fun _ => checks)) hchecks

/-- NEG does what VALIDATE does (R81). -/
theorem exec_neg_eq_exec_validate (a : Byte) (s : State) : exec (.neg a) s = exec (.validate a) s := rfl

/-- Settles O17 by the answers of ADD, which `exec_sub_eq_exec_add` carries over. -/
theorem subIsExclusiveOr : Obligations.SubIsExclusiveOr := by
  intro s a b
  obtain ⟨-, hadd⟩ := addIsExclusiveOr s a b
  simp only [Answers, Fails, ← exec_sub_eq_exec_add] at hadd
  exact ⟨decode_twoOperandWord (i := .sub a b) (by simp [Instr.opcode]), hadd⟩

/-- Settles O15 by the answers of VALIDATE, which `exec_neg_eq_exec_validate` carries over. -/
theorem negIsTheIdentity : Obligations.NegIsTheIdentity := by
  intro s a
  obtain ⟨-, hvalidate⟩ := validateAnswersItsOperand s a
  simp only [Answers, Fails, ← exec_neg_eq_exec_validate] at hvalidate
  exact ⟨decode_oneOperandWord (i := .neg a) (by simp [Instr.opcode]) rfl, hvalidate⟩

end Machine
end Sys2Proof
end

section
/-! SUPPORT. MUL and its helper functions (R90 to R96): the bit length, the reduction loop, and the worked trace. -/

namespace Sys2Proof.Machine

variable {s : State} {F : FieldCfg} {acc : Nat}

/-! ### The bit length -/

/-- The position of the highest set bit is `k - 1` exactly when `v` lies between the powers of two around it (R91). -/
theorem countBits_eq_iff {v k : Nat} (hv : 1 ≤ v) (hk : 1 ≤ k) : countBits v = k ↔ 2 ^ (k - 1) ≤ v ∧ v < 2 ^ k := by
  have hv0 : v ≠ 0 := Nat.one_le_iff_ne_zero.mp hv
  obtain ⟨p, rfl⟩ := Nat.exists_eq_add_of_le' hk
  rw [countBits, if_neg hv0, Nat.add_right_cancel_iff, Nat.add_sub_cancel, Nat.log2_eq_iff hv0]

/-- Settles O53: from 1 on by `countBits_eq_iff`. -/
theorem countBitsIsTheBitLength : Obligations.CountBitsIsTheBitLength :=
  ⟨rfl, fun _ hv _ hk => countBits_eq_iff hv hk⟩

/-! ### The reduction loop -/

/-- Below `ORDER` the loop ends at once, whatever its bound (R93). -/
theorem reduceLoop_of_lt (h : acc < F.order) (fuel : Nat) : reduceLoop F fuel acc = acc := by
  cases fuel with
  | zero => rfl
  | succ fuel => exact if_neg (Nat.not_le_of_lt h)

/-- From `ORDER` on the loop makes one step and goes on (R93). -/
theorem reduceLoop_of_le (h : F.order ≤ acc) (fuel : Nat) :
    reduceLoop F (fuel + 1) acc = reduceLoop F fuel (reduceStep F acc) := if_pos h

/-! ### MUL -/

/-- Past the check of `CFGV`, MUL answers the field product (R90). -/
theorem exec_mul_of_cfgv (h : s.cfgv = true) (a b : Byte) :
    exec (.mul a b) s = answer s (fmul s.field a.toNat b.toNat) := by
  simp only [exec, execMul, requireField_of_cfgv h]
  rfl

/-- A product that is a byte is what MUL answers. -/
theorem answers_mul {a b p : Byte} (h : s.cfgv = true) (hp : fmul s.field a.toNat b.toNat = .ok p.toNat) :
    Answers (.mul a b) s p := by
  rw [Answers, exec_mul_of_cfgv h, hp, answer_ok_byte]

/-! ### The worked trace (R96) -/

/-- Position 1 of the multiplier 3 puts `5 <<< 1 = 10` into the accumulator; the positions above it put nothing. -/
theorem clmul_five_three_after_position_one : clmul 5 3 = clmulLoop 5 3 1 10 := by decide

/-- Position 0 makes it `10 ^^^ 5 = 15`. -/
theorem clmulLoop_five_three_position_zero : clmulLoop 5 3 1 10 = 15 := by decide

theorem countBits_fifteen : countBits 15 = 4 := (countBits_eq_iff (by decide) (by decide)).mpr (by decide)

/-- The divisor 11 meets the 4 bits of 15 without a shift: `15 ^^^ 11 = 4`. -/
theorem reduceStep_fifteen : reduceStep (fieldOf 3) 15 = 4 := by
  rw [reduceStep, countBits_fifteen]
  decide

/-- One step is enough: 15 is not below `ORDER = 8`, and 4 is. -/
theorem reduce_fifteen : reduce (fieldOf 3) 15 = 4 := by
  calc reduce (fieldOf 3) 15
    _ = reduceLoop (fieldOf 3) 4 15 := by rw [reduce, countBits_fifteen]
    _ = reduceLoop (fieldOf 3) 3 4 := by rw [reduceLoop_of_le (by decide), reduceStep_fifteen]
    _ = 4 := reduceLoop_of_lt (by decide) 3

/-- The operands and the result lie in the field, so no guard of `fmul` raises. -/
theorem fmul_five_three : fmul (fieldOf 3) 5 3 = .ok 4 := by
  rw [fmul_inside (by decide) (by decide), if_neg (by decide), clmul_five_three_after_position_one,
    clmulLoop_five_three_position_zero, reduce_fifteen, validate_inside (by decide)]

/-- Settles O31: the trace line by line, and MUL by `fmul_five_three`. -/
theorem workedTraceGivesFour : Obligations.WorkedTraceGivesFour :=
  ⟨clmul_five_three_after_position_one, clmulLoop_five_three_position_zero, countBits_fifteen, reduceStep_fifteen,
    reduce_fifteen, fun _ hc hf => answers_mul hc (hf ▸ fmul_five_three)⟩

end Sys2Proof.Machine
end

section
/-! SUPPORT. The field the core computes in (R6, R17, R92, R93): a number's bits are the coefficients of a polynomial
over GF(2), and the elements of a field are the residues of such polynomials modulo the divisor, which is irreducible. -/

namespace Sys2Proof.Machine

open Polynomial

variable {F : FieldCfg} {a b v w acc : Nat}

/-! ### Bits as coefficients -/

theorem countBits_le_iff {k : Nat} : countBits v ≤ k ↔ v < 2 ^ k := by
  rw [countBits]
  split
  case isTrue h => simp [h]
  case isFalse h => rw [Nat.succ_le_iff, Nat.log2_lt h]

theorem lt_two_pow_countBits (v : Nat) : v < 2 ^ countBits v := countBits_le_iff.mp le_rfl

/-- Bit i of `v` is the coefficient of `X ^ i` (R6, R17). -/
noncomputable def bitPoly (v : Nat) : (ZMod 2)[X] :=
  ∑ i ∈ Finset.range (countBits v), if v.testBit i then X ^ i else 0

theorem testBit_eq_false_of_lt_two_pow {m k : Nat} (h : v < 2 ^ m) (hk : m ≤ k) : v.testBit k = false :=
  Nat.testBit_lt_two_pow (h.trans_le (Nat.pow_le_pow_right (by decide) hk))

/-- Any sum long enough for `v` has the coefficients of `bitPoly v`. -/
theorem coeff_bitSum {m : Nat} (h : v < 2 ^ m) (k : Nat) :
    (∑ i ∈ Finset.range m, if v.testBit i then (X ^ i : (ZMod 2)[X]) else 0).coeff k =
      if v.testBit k then 1 else 0 := by
  have hterm (i : Nat) : (if v.testBit i then (X ^ i : (ZMod 2)[X]) else 0).coeff k =
      if k = i then (if v.testBit k then 1 else 0) else 0 := by
    split <;> split <;> simp_all [coeff_X_pow]
  simp only [finsetSum_coeff, hterm, Finset.sum_ite_eq, Finset.mem_range]
  split
  case isTrue => rfl
  case isFalse hk => simp [testBit_eq_false_of_lt_two_pow h (Nat.le_of_not_lt hk)]

theorem coeff_bitPoly (v k : Nat) : (bitPoly v).coeff k = if v.testBit k then 1 else 0 :=
  coeff_bitSum (lt_two_pow_countBits v) k

@[simp] theorem bitPoly_zero : bitPoly 0 = 0 := by ext; simp [coeff_bitPoly]

@[simp] theorem bitPoly_one : bitPoly 1 = 1 := by
  ext k
  simp only [coeff_bitPoly, coeff_one, Nat.testBit_one_eq_true_iff_self_eq_zero]

/-- Exclusive-or is addition over GF(2). -/
theorem bitPoly_xor (a b : Nat) : bitPoly (a ^^^ b) = bitPoly a + bitPoly b := by
  ext k
  rw [coeff_add]
  simp only [coeff_bitPoly, Nat.testBit_xor]
  cases a.testBit k <;> cases b.testBit k <;> decide

theorem bitPoly_shiftLeft (v k : Nat) : bitPoly (v <<< k) = bitPoly v * X ^ k := by
  ext i
  rw [coeff_mul_X_pow']
  simp only [coeff_bitPoly, Nat.testBit_shiftLeft]
  split <;> simp_all

theorem degree_bitPoly_lt_iff {n : Nat} : (bitPoly v).degree < n ↔ v < 2 ^ n := by
  simp only [degree_lt_iff_coeff_zero, coeff_bitPoly]
  constructor
  · exact fun h => Nat.lt_pow_two_of_testBit v fun i hi => by simpa using h i hi
  · intro h i hi
    simp [testBit_eq_false_of_lt_two_pow h hi]

theorem bitPoly_eq_zero_iff : bitPoly v = 0 ↔ v = 0 := by
  rw [← degree_eq_bot, ← Nat.WithBot.lt_zero_iff]
  simpa using degree_bitPoly_lt_iff (v := v) (n := 0)

/-- Every polynomial over GF(2) is a number's: numbers have all monomials and all sums of what they have. -/
theorem exists_bitPoly_eq (p : (ZMod 2)[X]) : ∃ v, bitPoly v = p := by
  induction p using Polynomial.induction_on' with
  | add p q hp hq =>
    obtain ⟨a, rfl⟩ := hp
    obtain ⟨b, rfl⟩ := hq
    exact ⟨a ^^^ b, bitPoly_xor a b⟩
  | monomial n c =>
    obtain rfl | rfl : c = 0 ∨ c = 1 := by revert c; decide
    · exact ⟨0, by simp⟩
    · exact ⟨1 <<< n, by rw [bitPoly_shiftLeft, bitPoly_one, one_mul, X_pow_eq_monomial]⟩

/-! ### The reduction loop -/

/-- `ORDER` is the power of two at the top bit of `DIVISOR`, which is what the loop of R93 relies on (R17). -/
structure FieldCfg.Proper (F : FieldCfg) : Prop where
  order_eq : F.order = 2 ^ F.exp
  order_le_divisor : F.order ≤ F.divisor
  divisor_lt : F.divisor < 2 ^ (F.exp + 1)

/-- Exclusive-or cancels a common top bit. -/
theorem xor_lt_of_same_top_bit {p : Nat} (ha : 2 ^ p ≤ a) (ha' : a < 2 ^ (p + 1)) (hb : 2 ^ p ≤ b)
    (hb' : b < 2 ^ (p + 1)) : a ^^^ b < 2 ^ p := by
  refine Nat.lt_pow_two_of_testBit _ fun i hi => ?_
  rw [Nat.testBit_xor]
  rcases hi.eq_or_lt with rfl | hi
  · rw [Nat.testBit_of_two_pow_le_and_two_pow_add_one_gt ha ha',
      Nat.testBit_of_two_pow_le_and_two_pow_add_one_gt hb hb']
    rfl
  · rw [testBit_eq_false_of_lt_two_pow ha' hi, testBit_eq_false_of_lt_two_pow hb' hi]
    rfl

/-- The step cancels the top bit (R93). -/
theorem countBits_reduceStep_lt (hF : F.Proper) (h : F.order ≤ acc) : countBits (reduceStep F acc) < countBits acc := by
  obtain ⟨ho, hd, hd'⟩ := hF
  rw [ho] at h hd
  have hlen : F.exp < countBits acc := by
    by_contra hle
    exact absurd (countBits_le_iff.mp (Nat.le_of_not_lt hle)) (Nat.not_lt.mpr h)
  obtain ⟨k, hk⟩ : ∃ k, countBits acc = F.exp + k + 1 := ⟨countBits acc - F.exp - 1, by omega⟩
  obtain ⟨htop, htop'⟩ : 2 ^ (F.exp + k) ≤ acc ∧ acc < 2 ^ (F.exp + k + 1) :=
    (countBits_eq_iff (Nat.one_le_two_pow.trans h) (by omega)).mp hk
  rw [hk, Nat.lt_succ_iff, countBits_le_iff, reduceStep, hk, show F.exp + k + 1 - 1 - F.exp = k by omega,
    Nat.shiftLeft_eq]
  refine xor_lt_of_same_top_bit htop htop' ?_ ?_
  · rw [pow_add]
    exact Nat.mul_le_mul_right _ hd
  · rw [Nat.add_right_comm, pow_add]
    exact Nat.mul_lt_mul_of_pos_right hd' (by positivity)

/-- With a bound for every bit of the accumulator, the loop ends in the field (R93). -/
theorem reduceLoop_lt (hF : F.Proper) {fuel : Nat} (h : countBits acc ≤ fuel) : reduceLoop F fuel acc < F.order := by
  induction fuel generalizing acc with
  | zero =>
    obtain rfl : acc = 0 := by simpa using countBits_le_iff.mp h
    exact hF.order_eq ▸ Nat.two_pow_pos _
  | succ fuel ih =>
    rcases Nat.lt_or_ge acc F.order with hacc | hacc
    · rwa [reduceLoop_of_lt hacc]
    · rw [reduceLoop_of_le hacc]
      exact ih (by have := countBits_reduceStep_lt hF hacc; omega)

theorem reduce_lt (hF : F.Proper) (acc : Nat) : reduce F acc < F.order := reduceLoop_lt hF le_rfl

/-! ### Residues modulo the divisor -/

/-- What a number stands for in the field of the divisor. -/
noncomputable def residue (F : FieldCfg) (v : Nat) : AdjoinRoot (bitPoly F.divisor) := AdjoinRoot.mk _ (bitPoly v)

@[simp] theorem residue_zero (F : FieldCfg) : residue F 0 = 0 := by simp [residue]

@[simp] theorem residue_one (F : FieldCfg) : residue F 1 = 1 := by simp [residue]

theorem residue_xor (F : FieldCfg) (a b : Nat) : residue F (a ^^^ b) = residue F a + residue F b := by
  simp [residue, bitPoly_xor]

theorem residue_shiftLeft (F : FieldCfg) (v k : Nat) : residue F (v <<< k) = residue F v * AdjoinRoot.root _ ^ k := by
  simp [residue, bitPoly_shiftLeft]

/-- A step adds a multiple of the divisor. -/
theorem residue_reduceStep (F : FieldCfg) (acc : Nat) : residue F (reduceStep F acc) = residue F acc := by
  have hdivisor : residue F F.divisor = 0 := AdjoinRoot.mk_self
  rw [reduceStep, residue_xor, residue_shiftLeft, hdivisor, zero_mul, add_zero]

theorem residue_reduceLoop (F : FieldCfg) (fuel acc : Nat) : residue F (reduceLoop F fuel acc) = residue F acc := by
  induction fuel generalizing acc with
  | zero => rfl
  | succ fuel ih =>
    rcases Nat.lt_or_ge acc F.order with hacc | hacc
    · rw [reduceLoop_of_lt hacc]
    · rw [reduceLoop_of_le hacc, ih, residue_reduceStep]

theorem residue_reduce (F : FieldCfg) (acc : Nat) : residue F (reduce F acc) = residue F acc :=
  residue_reduceLoop F _ acc

theorem bitAt_eq_one_iff {i : Nat} : bitAt v i = 1 ↔ v.testBit i = true := by
  rw [bitAt, Nat.shiftRight_eq_div_pow, Nat.testBit_eq_decide_div_mod_eq, decide_eq_true_eq]

/-- The lowest i + 1 bits are the lowest i bits and bit i. -/
theorem bitPoly_mod_two_pow_succ (v i : Nat) :
    bitPoly (v % 2 ^ (i + 1)) = bitPoly (v % 2 ^ i) + if v.testBit i then X ^ i else 0 := by
  ext k
  have hlast : (if v.testBit i then (X ^ i : (ZMod 2)[X]) else 0).coeff k = if k = i ∧ v.testBit i then 1 else 0 := by
    split <;> simp_all [coeff_X_pow]
  rw [coeff_add, hlast]
  simp only [coeff_bitPoly, Nat.testBit_mod_two_pow]
  rcases lt_trichotomy k i with h | rfl | h
  · simp [h, h.ne, h.trans (Nat.lt_succ_self i)]
  · simp
  · simp [h.ne', h.not_gt, show ¬ k < i + 1 by omega]

/-- The loop adds the partial products of the positions it still has to scan (R92). -/
theorem bitPoly_clmulLoop (a b i acc : Nat) :
    bitPoly (clmulLoop a b i acc) = bitPoly acc + bitPoly a * bitPoly (b % 2 ^ i) := by
  induction i generalizing acc with
  | zero => simp [clmulLoop, Nat.mod_one]
  | succ i ih =>
    rw [clmulLoop, ih, bitPoly_mod_two_pow_succ]
    by_cases hbit : b.testBit i
    · rw [if_pos (bitAt_eq_one_iff.mpr hbit), if_pos hbit, bitPoly_xor, bitPoly_shiftLeft]
      ring
    · rw [if_neg (bitAt_eq_one_iff.not.mpr hbit), if_neg hbit, add_zero]

theorem bitPoly_clmul (a : Nat) (hb : b < 256) : bitPoly (clmul a b) = bitPoly a * bitPoly b := by
  rw [clmul, bitPoly_clmulLoop, bitPoly_zero, zero_add, Nat.mod_eq_of_lt (by exact hb)]

theorem residue_clmul (F : FieldCfg) (a : Nat) (hb : b < 256) : residue F (clmul a b) = residue F a * residue F b := by
  simp [residue, bitPoly_clmul a hb]

/-- Two elements of one residue are equal: their difference has too low a degree for a multiple of the divisor. -/
theorem eq_of_residue_eq (hF : F.Proper) (ha : a < F.order) (hb : b < F.order) (h : residue F a = residue F b) :
    a = b := by
  have hdvd : bitPoly F.divisor ∣ bitPoly (a ^^^ b) := by
    rw [← AdjoinRoot.mk_eq_zero]
    change residue F (a ^^^ b) = 0
    rw [residue_xor, h, ← residue_xor, Nat.xor_self, residue_zero]
  have hlow : (bitPoly (a ^^^ b)).degree < (bitPoly F.divisor).degree := by
    obtain ⟨ho, hd, -⟩ := hF
    rw [ho] at ha hb hd
    exact (degree_bitPoly_lt_iff.mpr (Nat.xor_lt_two_pow ha hb)).trans_le
      (not_lt.mp (degree_bitPoly_lt_iff.not.mpr (Nat.not_lt.mpr hd)))
  exact Nat.xor_eq_zero_iff.mp (bitPoly_eq_zero_iff.mp (eq_zero_of_dvd_of_degree_lt hdvd hlow))

/-- Every residue is an element's. -/
theorem exists_residue_eq (hF : F.Proper) (x : AdjoinRoot (bitPoly F.divisor)) : ∃ v < F.order, residue F v = x := by
  obtain ⟨p, rfl⟩ := AdjoinRoot.mk_surjective x
  obtain ⟨v, rfl⟩ := exists_bitPoly_eq p
  exact ⟨reduce F v, reduce_lt hF v, residue_reduce F v⟩

/-! ### The seven divisors are irreducible -/

theorem fieldOf_proper {n : Nat} (h1 : 1 ≤ n) (h7 : n ≤ 7) : (fieldOf n).Proper := by
  have hrow : ∀ n < 8, 1 ≤ n → 2 ^ n ≤ divTab n ∧ divTab n < 2 ^ (n + 1) := by decide
  obtain ⟨hd, hd'⟩ := hrow n (by omega) h1
  have ho : (fieldOf n).order = 2 ^ n := Nat.one_shiftLeft n
  exact ⟨ho, ho ▸ hd, hd'⟩

/-- The field whose divisor would be `d`. -/
def trialField (d : Nat) : FieldCfg := ⟨d.log2, 2 ^ d.log2, d⟩

theorem trialField_proper {d : Nat} (h : d ≠ 0) : (trialField d).Proper :=
  ⟨rfl, Nat.log2_self_le h, Nat.lt_log2_self⟩

/-- A divisor leaves no remainder. -/
theorem reduce_trialField_of_dvd {d : Nat} (hd : d ≠ 0) (h : bitPoly d ∣ bitPoly v) : reduce (trialField d) v = 0 := by
  have hF := trialField_proper hd
  have hzero : residue (trialField d) v = 0 := AdjoinRoot.mk_eq_zero.mpr h
  refine eq_of_residue_eq hF (reduce_lt hF v) (Nat.two_pow_pos _) ?_
  rw [residue_reduce, hzero, residue_zero]

/-- Trial division: no polynomial of degree 1 up to half the degree of a divisor of R17 divides it. -/
theorem reduce_trialField_divTab :
    ∀ n < 8, ∀ d < 2 ^ (n / 2 + 1), 2 ≤ d → reduce (trialField d) (divTab n) ≠ 0 := by decide

theorem monic_bitPoly (h : v ≠ 0) : (bitPoly v).Monic := by
  have hne : (bitPoly v).leadingCoeff ≠ 0 := leadingCoeff_ne_zero.mpr (bitPoly_eq_zero_iff.not.mpr h)
  rw [Monic]
  revert hne
  generalize (bitPoly v).leadingCoeff = c
  revert c
  decide

theorem natDegree_bitPoly_lt_iff {n : Nat} (h : v ≠ 0) : (bitPoly v).natDegree < n ↔ v < 2 ^ n := by
  rw [natDegree_lt_iff_degree_lt (bitPoly_eq_zero_iff.not.mpr h), degree_bitPoly_lt_iff]

/-- A proper factor would have one of degree at most half, which trial division has excluded. -/
theorem irreducible_bitPoly_divTab {n : Nat} (h1 : 1 ≤ n) (h7 : n ≤ 7) : Irreducible (bitPoly (divTab n)) := by
  obtain ⟨ho, hd, hd'⟩ := fieldOf_proper h1 h7
  rw [ho] at hd
  have hne : divTab n ≠ 0 := (Nat.two_pow_pos n).trans_le hd |>.ne'
  have hdegree : (bitPoly (divTab n)).natDegree < n + 1 := (natDegree_bitPoly_lt_iff hne).mpr hd'
  have hdegree' : ¬ (bitPoly (divTab n)).natDegree < n := (natDegree_bitPoly_lt_iff hne).not.mpr (Nat.not_lt.mpr hd)
  have hnotOne : bitPoly (divTab n) ≠ 1 := fun h => by
    rw [h, natDegree_one] at hdegree'
    omega
  refine ((monic_bitPoly hne).irreducible_iff_lt_natDegree_lt hnotOne).mpr fun q hq hqdeg hdvd => ?_
  obtain ⟨d, rfl⟩ := exists_bitPoly_eq q
  have hd0 : d ≠ 0 := fun h => hq.ne_zero (bitPoly_eq_zero_iff.mpr h)
  obtain ⟨hlow, hhigh⟩ := Finset.mem_Ioc.mp hqdeg
  have hlt : d < 2 ^ (n / 2 + 1) := (natDegree_bitPoly_lt_iff hd0).mp (by omega)
  have hge : ¬ d < 2 ^ 1 := (natDegree_bitPoly_lt_iff hd0).not.mp (by omega)
  exact reduce_trialField_divTab n (by omega) d hlt (by omega) (reduce_trialField_of_dvd hd0 hdvd)

/-! ### The product and the inverse -/

/-- For n = 1 the integer product is the reduced product (R94). -/
theorem mul_eq_reduce_clmul : ∀ x < 2, ∀ y < 2, x * y = reduce (fieldOf 1) (clmul x y) := by decide

/-- `fmul` of two elements is the product in the field (R94); its last check never fails (R71). -/
theorem fmul_fieldOf {n x y : Nat} (h1 : 1 ≤ n) (h7 : n ≤ 7) (hx : x < (fieldOf n).order) (hy : y < (fieldOf n).order) :
    fmul (fieldOf n) x y = .ok (reduce (fieldOf n) (clmul x y)) := by
  have hp : (if (fieldOf n).exp = 1 then x * y else reduce (fieldOf n) (clmul x y)) =
      reduce (fieldOf n) (clmul x y) := by
    split
    case isTrue hn =>
      obtain rfl : n = 1 := hn
      exact mul_eq_reduce_clmul x hx y hy
    case isFalse => rfl
  rw [fmul_inside hx hy, hp, validate_inside (reduce_lt (fieldOf_proper h1 h7) _)]

theorem residue_reduce_clmul {n x y : Nat} (h1 : 1 ≤ n) (h7 : n ≤ 7) (hy : y < (fieldOf n).order) :
    residue (fieldOf n) (reduce (fieldOf n) (clmul x y)) = residue (fieldOf n) x * residue (fieldOf n) y := by
  have hsmall : 2 ^ n ≤ 2 ^ 7 := Nat.pow_le_pow_right (by decide) h7
  rw [residue_reduce, residue_clmul]
  rw [(fieldOf_proper h1 h7).order_eq] at hy
  exact hy.trans_le (hsmall.trans (by decide))

/-- Every element but 0 has an inverse (R103): the residues modulo an irreducible divisor are a field. -/
theorem exists_fmul_eq_one {n x : Nat} (h1 : 1 ≤ n) (h7 : n ≤ 7) (hx : x < (fieldOf n).order) (hx0 : x ≠ 0) :
    ∃ w < (fieldOf n).order, fmul (fieldOf n) x w = .ok 1 := by
  have hF := fieldOf_proper h1 h7
  have : Fact (Irreducible (bitPoly (fieldOf n).divisor)) := ⟨irreducible_bitPoly_divTab h1 h7⟩
  have hone : 1 < (fieldOf n).order := hF.order_eq ▸ Nat.one_lt_two_pow (by exact Nat.one_le_iff_ne_zero.mp h1)
  have hne : residue (fieldOf n) x ≠ 0 := fun h =>
    hx0 (eq_of_residue_eq hF hx (by omega) (h.trans (residue_zero _).symm))
  obtain ⟨w, hw, hinv⟩ := exists_residue_eq hF (residue (fieldOf n) x)⁻¹
  have hprod : reduce (fieldOf n) (clmul x w) = 1 := by
    refine eq_of_residue_eq hF (reduce_lt hF _) hone ?_
    rw [residue_reduce_clmul h1 h7 hw, hinv, mul_inv_cancel₀ hne, residue_one]
  exact ⟨w, hw, by rw [fmul_fieldOf h1 h7 hx hw, hprod]⟩

end Sys2Proof.Machine
end

section
/-! SUPPORT. INVERT and DIV (R100 to R103): the search ends at the first candidate whose product is 1, and in a
configured field there is one for every operand but 0. -/

namespace Sys2Proof.Machine

variable {s : State} {F : FieldCfg} {a b : Byte} {x : Nat}

/-! ### The search -/

/-- The search passes over candidates whose product is not 1 (R100). -/
theorem finvSearch_append_of_ne_one {cands rest : List Nat} (h : ∀ c ∈ cands, ∃ p, p ≠ 1 ∧ fmul F x c = .ok p) :
    finvSearch F x (cands ++ rest) = finvSearch F x rest := by
  induction cands with
  | nil => rfl
  | cons c cands ih =>
    obtain ⟨⟨p, hp1, hp⟩, htail⟩ := List.forall_mem_cons.mp h
    rw [List.cons_append, finvSearch_cons hp, if_neg hp1, ih htail]

/-- `finv` returns the first candidate whose product is 1 (R100). -/
theorem finv_eq_of_first {v : Nat} (hx : x ≠ 0) (hv : v < F.order) (hone : fmul F x v = .ok 1)
    (hfirst : ∀ c < v, ∃ p, p ≠ 1 ∧ fmul F x c = .ok p) : finv F x = .ok v := by
  obtain ⟨k, hk⟩ := Nat.exists_eq_add_of_lt hv
  have hsplit : ∃ rest, List.range F.order = List.range v ++ v :: rest :=
    ⟨_, by rw [hk, Nat.add_assoc, List.range_add, List.range_succ_eq_map]; rfl⟩
  obtain ⟨rest, hrest⟩ := hsplit
  rw [finv, if_neg hx, hrest, finvSearch_append_of_ne_one fun c hc => hfirst c (List.mem_range.mp hc),
    finvSearch_cons hone, if_pos rfl, validate_inside hv]

theorem finv_zero (F : FieldCfg) : finv F 0 = .error .noInverse := if_pos rfl

/-- Already the product with the candidate 0 rejects an operand outside the field (R101). -/
theorem finv_outside (h0 : 0 < F.order) (h : F.order ≤ x) : finv F x = .error .invalidNumber := by
  obtain ⟨k, hk⟩ := Nat.exists_eq_add_of_lt h0
  rw [finv, if_neg (by omega), hk, Nat.zero_add, List.range_succ_eq_map, finvSearch, fmul_outside_left h]
  rfl

/-- In a configured field `finv` of an element but 0 is the first number whose product with it is 1. -/
theorem finv_inside (hs : Configured s) (hx : x < s.order.toNat) (hx0 : x ≠ 0) :
    ∃ v < s.order.toNat, finv s.field x = .ok v ∧ fmul s.field x v = .ok 1 ∧
      ∀ w < v, fmul s.field x w ≠ .ok 1 := by
  obtain ⟨hF, h1, h7⟩ := field_eq_fieldOf hs
  rw [← field_order, hF] at hx ⊢
  obtain ⟨w, hw, hinv⟩ := exists_fmul_eq_one h1 h7 hx hx0
  have hex : ∃ w, fmul (fieldOf s.exp.toNat) x w = .ok 1 := ⟨w, hinv⟩
  have hlt : Nat.find hex < (fieldOf s.exp.toNat).order := (Nat.find_min' hex hinv).trans_lt hw
  refine ⟨Nat.find hex, hlt, ?_, Nat.find_spec hex, fun w => Nat.find_min hex⟩
  refine finv_eq_of_first hx0 hlt (Nat.find_spec hex) fun c hc => ?_
  have hc1 := Nat.find_min hex hc
  rw [fmul_fieldOf h1 h7 hx (hc.trans hlt)] at hc1 ⊢
  exact ⟨_, fun h => hc1 (congrArg _ h), rfl⟩

/-! ### Answers in bytes -/

/-- `ORDER` is a byte, so every number below it is one. -/
theorem exists_byte_of_lt_order {v : Nat} (h : v < s.order.toNat) : ∃ b : Byte, b.toNat = v :=
  ⟨BitVec.ofNat 8 v, BitVec.toNat_ofNat v 8 ▸ Nat.mod_eq_of_lt (h.trans s.order.isLt)⟩

/-- Two responses are the same word only if their statuses and their results are the same (R54). -/
theorem answered_inj {c c' u u' : Nat} (hc : c < 256) (hc' : c' < 256) (hu : u < 256) (hu' : u' < 256)
    (h : answered s c u = answered s c' u') : c = c' ∧ u = u' := by
  have hrsps : s.rsps ++ [BitVec.ofNat 16 (c * 256 + u)] = s.rsps ++ [BitVec.ofNat 16 (c' * 256 + u')] :=
    congrArg State.rsps h
  have hword := congrArg BitVec.toNat (List.singleton_injective (List.append_cancel_left hrsps))
  simp only [BitVec.toNat_ofNat] at hword
  omega

theorem errCode_pos (e : Err) : 0 < (errCode e).toNat := by cases e <;> decide

/-- A command that ends by `answer` answers the byte of its result and no other. -/
theorem answer_eq_answered_iff {r : Except Err Nat} (hr : ∀ v, r = .ok v → v < 256) (p : Byte) :
    answer s r = .next (answered s 0 p.toNat) ↔ r = .ok p.toNat := by
  refine ⟨fun h => ?_, fun h => h ▸ answer_ok_byte s p⟩
  cases r with
  | ok v =>
    rw [answer_ok, respondOk_eq v s (hr v rfl)] at h
    injection h with h
    rw [(answered_inj (by decide) (by decide) (hr v rfl) p.isLt h).2]
  | error e =>
    rw [answer_error_eq] at h
    injection h with h
    have hcode := (errCode e).isLt
    exact absurd (answered_inj (by omega) (by decide) (by decide) p.isLt h).1 (errCode_pos e).ne'

/-- `fmul` checks its result last (R94). -/
theorem fmul_lt {y p : Nat} (h : fmul F x y = .ok p) : p < F.order := by
  rcases Nat.lt_or_ge x F.order with hx | hx
  · rcases Nat.lt_or_ge y F.order with hy | hy
    · rw [fmul_inside hx hy, validate_ok_iff] at h
      exact h.2 ▸ h.1
    · rw [fmul_outside_right hx hy] at h
      cases h
  · rw [fmul_outside_left hx] at h
    cases h

theorem answers_mul_iff (hc : s.cfgv = true) {p : Byte} :
    Answers (.mul a b) s p ↔ fmul s.field a.toNat b.toNat = .ok p.toNat := by
  rw [Answers, exec_mul_of_cfgv hc]
  exact answer_eq_answered_iff (fun v hv => (fmul_lt hv).trans s.order.isLt) p

/-- MUL of two elements answers their reduced product (R94). -/
theorem exists_answers_mul (hs : Configured s) (ha : Element s a) (hb : Element s b) :
    ∃ p : Byte, Answers (.mul a b) s p ∧ p.toNat = reduce s.field (clmul a.toNat b.toNat) := by
  have hmul : fmul s.field a.toNat b.toNat = .ok (reduce s.field (clmul a.toNat b.toNat)) := by
    obtain ⟨hF, h1, h7⟩ := field_eq_fieldOf hs
    rw [Element, ← field_order, hF] at ha hb
    rw [hF, fmul_fieldOf h1 h7 ha hb]
  obtain ⟨p, hp⟩ := exists_byte_of_lt_order (fmul_lt hmul)
  exact ⟨p, answers_mul hs.1 (hp ▸ hmul), hp⟩

theorem fails_mul_outside_left (hc : s.cfgv = true) (ha : ¬ Element s a) (b : Byte) : Fails (.mul a b) s 2 := by
  rw [Fails, exec_mul_of_cfgv hc, fmul_outside_left (Nat.le_of_not_lt ha)]
  exact answer_error_eq s .invalidNumber

/-! ### INVERT -/

theorem exec_invert_of_not_cfgv (h : s.cfgv = false) (a : Byte) : Fails (.invert a) s 7 := by
  simp only [Fails, exec, execInvert, requireField_of_not_cfgv h]
  exact answer_error_eq s .notConstructed

/-- Past the check of `CFGV`, INVERT answers what `finv` says (R101). -/
theorem exec_invert_of_cfgv (h : s.cfgv = true) (a : Byte) :
    exec (.invert a) s = answer s (finv s.field a.toNat) := by
  simp only [exec, execInvert, requireField_of_cfgv h]
  rfl

theorem answers_invert {v : Byte} (hc : s.cfgv = true) (hv : finv s.field a.toNat = .ok v.toNat) :
    Answers (.invert a) s v := by
  rw [Answers, exec_invert_of_cfgv hc, hv, answer_ok_byte]

theorem fails_invert_zero (hc : s.cfgv = true) (ha : a.toNat = 0) : Fails (.invert a) s 3 := by
  rw [Fails, exec_invert_of_cfgv hc, ha, finv_zero]
  exact answer_error_eq s .noInverse

theorem order_pos_of_configured (hs : Configured s) : 0 < s.order.toNat := by
  obtain ⟨-, -, ho, -⟩ := hs.2 hs.1
  rw [ho, Nat.one_shiftLeft]
  exact Nat.two_pow_pos _

theorem fails_invert_outside (hs : Configured s) (ha : ¬ Element s a) : Fails (.invert a) s 2 := by
  rw [Fails, exec_invert_of_cfgv hs.1, finv_outside (order_pos_of_configured hs) (Nat.le_of_not_lt ha)]
  exact answer_error_eq s .invalidNumber

/-- Settles O21: the ends of `finv`, and `finv_inside` for the element it answers. -/
theorem invertAnswersTheInverse : Obligations.InvertAnswersTheInverse := by
  refine fun s a => ⟨decode_oneOperandWord (i := .invert a) (by simp [Instr.opcode]) rfl,
    fun hc => exec_invert_of_not_cfgv hc a, fails_invert_zero, fails_invert_outside, fun hs ha0 ha => ?_⟩
  obtain ⟨v, hv, hfinv, hone, hfirst⟩ := finv_inside hs ha ha0
  obtain ⟨v, rfl⟩ := exists_byte_of_lt_order hv
  exact ⟨v, answers_invert hs.1 hfinv, hv, (answers_mul_iff hs.1).mpr hone,
    fun w hw h => hfirst w.toNat hw ((answers_mul_iff hs.1).mp h)⟩

/-! ### DIV -/

theorem exec_div_of_not_cfgv (h : s.cfgv = false) (a b : Byte) : Fails (.div a b) s 7 := by
  simp only [Fails, exec, execDiv, requireField_of_not_cfgv h]
  exact answer_error_eq s .notConstructed

/-- Past the check of `CFGV`, DIV multiplies by what `finv` finds, and `finv` comes first (R102). -/
theorem exec_div_of_cfgv (h : s.cfgv = true) (a b : Byte) :
    exec (.div a b) s = answer s (finv s.field b.toNat >>= fmul s.field a.toNat) := by
  simp only [exec, execDiv, requireField_of_cfgv h]
  rfl

/-- An error of `finv` is DIV's, whatever the first operand is. -/
theorem exec_div_of_finv_error {e : Err} (hc : s.cfgv = true) (a : Byte) (h : finv s.field b.toNat = .error e) :
    exec (.div a b) s = answer s (.error e) := by
  rw [exec_div_of_cfgv hc, h]
  rfl

/-- Past `finv`, DIV does what MUL by the inverse does. -/
theorem exec_div_eq_exec_mul {v : Byte} (hc : s.cfgv = true) (a : Byte) (h : finv s.field b.toNat = .ok v.toNat) :
    exec (.div a b) s = exec (.mul a v) s := by
  rw [exec_div_of_cfgv hc, h, exec_mul_of_cfgv hc]
  rfl

theorem fails_div_zero (hc : s.cfgv = true) (hb : b.toNat = 0) : Fails (.div a b) s 3 := by
  rw [Fails, exec_div_of_finv_error hc a (hb ▸ finv_zero s.field)]
  exact answer_error_eq s .noInverse

/-- Outside the field, the second operand is refused by `finv`, and the first by the multiplication after it (R102). -/
theorem fails_div_outside (hs : Configured s) (hb0 : b.toNat ≠ 0) (h : ¬ (Element s a ∧ Element s b)) :
    Fails (.div a b) s 2 := by
  by_cases hb : Element s b
  · obtain ⟨v, hv, hfinv, -⟩ := finv_inside hs hb hb0
    obtain ⟨v, rfl⟩ := exists_byte_of_lt_order hv
    rw [Fails, exec_div_eq_exec_mul hs.1 a hfinv]
    exact fails_mul_outside_left hs.1 (fun ha => h ⟨ha, hb⟩) v
  · rw [Fails, exec_div_of_finv_error hs.1 a (finv_outside (order_pos_of_configured hs) (Nat.le_of_not_lt hb))]
    exact answer_error_eq s .invalidNumber

/-- Settles O23: the errors of `finv` before those of the product, and `exec_div_eq_exec_mul` for the quotient. -/
theorem divMultipliesByTheInverse : Obligations.DivMultipliesByTheInverse := by
  refine fun s a b => ⟨decode_twoOperandWord (i := .div a b) (by simp [Instr.opcode]),
    fun hc => exec_div_of_not_cfgv hc a b, fails_div_zero, fails_div_outside, fun hs hb0 ha hb => ?_⟩
  obtain ⟨v, hv, hfinv, -⟩ := finv_inside hs hb hb0
  obtain ⟨v, rfl⟩ := exists_byte_of_lt_order hv
  obtain ⟨q, hq, -⟩ := exists_answers_mul hs ha hv
  exact ⟨v, q, answers_invert hs.1 hfinv, hq, (exec_div_eq_exec_mul hs.1 a hfinv).trans hq⟩

end Sys2Proof.Machine
end

section
/-! SUPPORT. The Matrix container (R31 to R34, R110): what `get` answers after `set` and after a write of a column or of
several, in either storage order. -/

namespace Sys2Proof.Machine

variable {m m' : MatrixVal} {r c r' c' k : Nat} {v : Byte}

/-! ### The linear index -/

/-- Quotient and remainder by `n` are unique. -/
theorem mul_add_inj {x y x' y' n : Nat} (hy : y < n) (hy' : y' < n) (h : x * n + y = x' * n + y') :
    x = x' ∧ y = y' := by
  have hunique (z w : Nat) (hw : w < n) : (z * n + w) / n = z ∧ (z * n + w) % n = w :=
    (Nat.div_mod_unique (Nat.zero_lt_of_lt hw)).mpr ⟨by rw [Nat.mul_comm, Nat.add_comm], hw⟩
  obtain ⟨hdiv, hmod⟩ := hunique x y hy
  obtain ⟨hdiv', hmod'⟩ := hunique x' y' hy'
  exact ⟨hdiv.symm.trans (h ▸ hdiv'), hmod.symm.trans (h ▸ hmod')⟩

/-- The index of a coordinate inside the shape is one of the `rows * cols` bytes (R31). -/
theorem matIdx_lt (o : StorageOrder) {rows cols : Nat} (hr : r < rows) (hc : c < cols) :
    matIdx o rows cols r c < rows * cols := by
  cases o with
  | rowMajor => simpa only [matIdx, Nat.mul_comm] using Nat.mul_add_lt_mul_of_lt_of_lt hr hc
  | columnMajor => simpa only [matIdx, Nat.mul_comm, Nat.add_comm] using Nat.add_mul_lt_mul_of_lt_of_lt hr hc

/-- No two coordinates inside the shape share a byte (R31). -/
theorem matIdx_inj {o : StorageOrder} {rows cols : Nat} (hr : r < rows) (hc : c < cols) (hr' : r' < rows)
    (hc' : c' < cols) (h : matIdx o rows cols r c = matIdx o rows cols r' c') : r = r' ∧ c = c' := by
  cases o with
  | rowMajor => exact mul_add_inj hc hc' h
  | columnMajor => exact (mul_add_inj hr hr' h).symm

/-! ### One element -/

namespace MatrixVal

/-- A valid matrix has one byte per coordinate (R30). -/
theorem length_data_of_valid (hm : m.valid = true) : m.data.length = m.rows * m.cols := by
  simp only [valid, Bool.and_eq_true, decide_eq_true_eq] at hm
  exact hm.2

/-- `m'` has the shape and the storage order of `m`, and as many bytes. -/
structure SameShape (m' m : MatrixVal) : Prop where
  rows : m'.rows = m.rows
  cols : m'.cols = m.cols
  order : m'.order = m.order
  length : m'.data.length = m.data.length

theorem SameShape.trans {m₁ : MatrixVal} (h : SameShape m' m₁) (h₁ : SameShape m₁ m) : SameShape m' m :=
  ⟨h.rows.trans h₁.rows, h.cols.trans h₁.cols, h.order.trans h₁.order, h.length.trans h₁.length⟩

/-- Validity is a matter of shape and length (R30). -/
theorem SameShape.valid (h : SameShape m' m) (hm : m.valid = true) : m'.valid = true := by
  rwa [MatrixVal.valid, h.rows, h.cols, h.length]

theorem sameShape_of_set (h : m.set r c v = .ok m') : SameShape m' m := by
  obtain ⟨hrows, hcols, horder, hlength⟩ := set_shape h
  exact ⟨hrows, hcols, horder, hlength⟩

theorem sameShape_of_setColFrom {vs : List Byte} (h : m.setColFrom c k vs = .ok m') : SameShape m' m := by
  obtain ⟨hrows, hcols, horder, hlength⟩ := setColFrom_shape h
  exact ⟨hrows, hcols, horder, hlength⟩

theorem get_outside (h : m.rows ≤ r ∨ m.cols ≤ c) : m.get r c = .error (.raised .outOfBounds) := if_pos h

/-- `get` answers the byte at the linear index of a coordinate inside the shape (R33). -/
theorem get_ok_iff :
    m.get r c = .ok v ↔ r < m.rows ∧ c < m.cols ∧ m.data[matIdx m.order m.rows m.cols r c]? = some v := by
  by_cases h : m.rows ≤ r ∨ m.cols ≤ c
  · rw [get_outside h]
    exact ⟨fun hget => (nomatch hget), fun ⟨hr, hc, _⟩ => by omega⟩
  · obtain ⟨hr, hc⟩ : r < m.rows ∧ c < m.cols := by omega
    rw [get, if_neg h]
    cases m.data[matIdx m.order m.rows m.cols r c]? <;> simp [hr, hc]

theorem set_ok_iff :
    m.set r c v = .ok m' ↔
      r < m.rows ∧ c < m.cols ∧ m' = { m with data := m.data.set (matIdx m.order m.rows m.cols r c) v } := by
  by_cases h : m.rows ≤ r ∨ m.cols ≤ c
  · rw [set_outside m r c v h]
    exact ⟨fun hset => (nomatch hset), fun ⟨hr, hc, _⟩ => by omega⟩
  · obtain ⟨hr, hc⟩ : r < m.rows ∧ c < m.cols := by omega
    rw [set_inside m r c v hr hc, Except.ok.injEq]
    exact ⟨fun hm' => ⟨hr, hc, hm'.symm⟩, fun ⟨_, _, hm'⟩ => hm'.symm⟩

/-- An element that was set is read back (R33). -/
theorem get_of_set (hm : m.valid = true) (h : m.set r c v = .ok m') : m'.get r c = .ok v := by
  obtain ⟨hr, hc, rfl⟩ := set_ok_iff.mp h
  refine get_ok_iff.mpr ⟨hr, hc, List.getElem?_set_self ?_⟩
  exact length_data_of_valid hm ▸ matIdx_lt m.order hr hc

/-- Setting an element changes no other (R33). -/
theorem get_of_set_ne (h : m.set r c v = .ok m') (hne : ¬ (r' = r ∧ c' = c)) : m'.get r' c' = m.get r' c' := by
  obtain ⟨hr, hc, rfl⟩ := set_ok_iff.mp h
  by_cases hout : m.rows ≤ r' ∨ m.cols ≤ c'
  · rw [get_outside hout]
    exact get_outside hout
  · have hidx : matIdx m.order m.rows m.cols r c ≠ matIdx m.order m.rows m.cols r' c' := fun heq => by
      obtain ⟨rfl, rfl⟩ := matIdx_inj hr hc (by omega) (by omega) heq
      exact hne ⟨rfl, rfl⟩
    simp only [get, List.getElem?_set_ne hidx]

/-! ### One column -/

theorem setColFrom_cons_ok {vs : List Byte} (h : m.setColFrom c k (v :: vs) = .ok m') :
    ∃ m₁, m.set k c v = .ok m₁ ∧ m₁.setColFrom c (k + 1) vs = .ok m' := by
  unfold setColFrom at h
  split at h
  case h_1 m₁ hset => exact ⟨m₁, hset, h⟩
  case h_2 => cases h

/-- The elements of other columns, and those above the first one written, keep their values. -/
theorem get_of_setColFrom_ne {vs : List Byte} (h : m.setColFrom c k vs = .ok m') (hne : c' ≠ c ∨ r' < k) :
    m'.get r' c' = m.get r' c' := by
  induction vs generalizing m k with
  | nil =>
    cases h
    rfl
  | cons v vs ih =>
    obtain ⟨m₁, hset, hrest⟩ := setColFrom_cons_ok h
    rw [ih hrest (by omega), get_of_set_ne hset (by omega)]

/-- The values written downwards from row k are read back. -/
theorem get_of_setColFrom {vs : List Byte} {i : Nat} (hm : m.valid = true) (h : m.setColFrom c k vs = .ok m')
    (hv : vs[i]? = some v) : m'.get (k + i) c = .ok v := by
  induction vs generalizing m k i with
  | nil => cases hv
  | cons u vs ih =>
    obtain ⟨m₁, hset, hrest⟩ := setColFrom_cons_ok h
    cases i with
    | zero =>
      cases hv
      exact (get_of_setColFrom_ne hrest (.inr (Nat.lt_succ_self k))).trans (get_of_set hm hset)
    | succ i => exact Nat.succ_add_eq_add_succ k i ▸ ih ((sameShape_of_set hset).valid hm) hrest hv

/-- A column of the right length inside the shape is written from row 0 on (R34). -/
theorem setCol_inside {values : List Byte} (hc : c < m.cols) (hlength : values.length = m.rows) :
    m.setCol c values = m.setColFrom c 0 values := by
  rw [setCol, if_neg (Nat.not_le_of_lt hc), if_neg (not_not.mpr hlength)]

/-- Writing a column of the right length inside the shape succeeds, keeps the shape, and is read back; the other
columns keep their values (R34). -/
theorem setCol_spec {values : List Byte} (hm : m.valid = true) (hc : c < m.cols) (hlength : values.length = m.rows) :
    ∃ m', m.setCol c values = .ok m' ∧ SameShape m' m ∧
      (∀ r v, values[r]? = some v → m'.get r c = .ok v) ∧ ∀ r c', c' ≠ c → m'.get r c' = m.get r c' := by
  obtain ⟨m', h⟩ := setColFrom_inside values m c 0 hc (by omega)
  exact ⟨m', (setCol_inside hc hlength).trans h, sameShape_of_setColFrom h,
    fun r v hv => Nat.zero_add r ▸ get_of_setColFrom hm h hv, fun r c' hne => get_of_setColFrom_ne h (.inl hne)⟩

/-! ### Several columns -/

/-- Columns that fit, written from column k on, are read back; the columns before k keep their values (R110). -/
theorem setColumns_spec {cols : List (List Byte)} (hm : m.valid = true) (hk : k + cols.length ≤ m.cols)
    (hlength : ∀ col ∈ cols, col.length = m.rows) :
    ∃ m', m.setColumns k cols = .ok m' ∧ SameShape m' m ∧
      (∀ i col r v, cols[i]? = some col → col[r]? = some v → m'.get r (k + i) = .ok v) ∧
      ∀ r, ∀ c < k, m'.get r c = m.get r c := by
  induction cols generalizing m k with
  | nil => exact ⟨m, rfl, ⟨rfl, rfl, rfl, rfl⟩, fun _ _ _ _ h => (nomatch h), fun _ _ _ => rfl⟩
  | cons col cols ih =>
    obtain ⟨hcol, hcols⟩ := List.forall_mem_cons.mp hlength
    rw [List.length_cons] at hk
    obtain ⟨m₁, hset, hshape₁, hread, hkeep⟩ := setCol_spec (c := k) hm (by omega) hcol
    have hk₁ : k + 1 + cols.length ≤ m₁.cols := by
      rw [hshape₁.cols]
      omega
    obtain ⟨m', hrest, hshape, hread', hkeep'⟩ := ih (hshape₁.valid hm) hk₁ (hshape₁.rows ▸ hcols)
    refine ⟨m', by simp only [setColumns, hset, hrest], hshape.trans hshape₁, fun i col' r v hi hv => ?_,
      fun r c hc => ?_⟩
    · cases i with
      | zero =>
        cases hi
        exact (hkeep' r k (Nat.lt_succ_self k)).trans (hread r v hv)
      | succ i => exact Nat.succ_add_eq_add_succ k i ▸ hread' i col' r v hi hv
    · rw [hkeep' r c (by omega), hkeep r c (by omega)]

/-- A fresh matrix with both dimensions at least 1 is valid (R32). -/
theorem init_spec (o : StorageOrder) {rows cols : Nat} (hr : 1 ≤ rows) (hc : 1 ≤ cols) :
    ∃ m, init rows cols o = .ok m ∧ m.valid = true ∧ m.rows = rows ∧ m.cols = cols ∧ m.order = o :=
  ⟨⟨rows, cols, o, List.replicate (rows * cols) 0⟩, if_neg (by omega), by simp [valid, hr, hc], rfl, rfl, rfl⟩

/-- Once a buffer is filled with a matrix, the byte at a coordinate's linear index is its element (R38). -/
theorem read?_fill_of_get (h : m.get r c = .ok v) :
    Memory.read? (Memory.writeRun [] 0 m.data) (matIdx m.order m.rows m.cols r c) = some v := by
  obtain ⟨-, -, hv⟩ := get_ok_iff.mp h
  obtain ⟨hlt, -⟩ := List.getElem?_eq_some_iff.mp hv
  rw [Memory.read?_writeRun, if_pos (by omega)]
  exact hv

end MatrixVal

end Sys2Proof.Machine
end

section
/-! SUPPORT. TOMATRIX and MGET (R110, R112): the matrix TOMATRIX puts in the buffer, and the byte MGET reads. -/

namespace Sys2Proof.Machine

variable {s : State} {a : Byte}

/-! ### The columns -/

theorem getElem?_columnBits {n r : Nat} (hr : r < n) (v : Nat) :
    (columnBits n v)[r]? = some (BitVec.ofNat 8 (bitAt v r)) := by
  simp [columnBits, hr]

/-- The matrix of n columns of n bits is square, in row-major order, and has bit r of the number c at (r, c) (R110). -/
theorem matrixOfColumns_spec {n : Nat} {cols : List Nat} (hn : 1 ≤ n) (hlength : cols.length = n) :
    ∃ m, matrixOfColumns n cols = .ok m ∧ m.rows = n ∧ m.cols = n ∧ m.order = .rowMajor ∧
      ∀ c v r, cols[c]? = some v → r < n → m.get r c = .ok (BitVec.ofNat 8 (bitAt v r)) := by
  obtain ⟨m₀, hinit, hvalid, hrows, hcols, horder⟩ := MatrixVal.init_spec .rowMajor hn hn
  have hbits : ∀ col ∈ cols.map (columnBits n), col.length = m₀.rows := by simp [columnBits, hrows]
  obtain ⟨m, hset, hshape, hread, -⟩ :=
    MatrixVal.setColumns_spec hvalid (k := 0) (cols := cols.map (columnBits n)) (by simp [hlength, hcols]) hbits
  refine ⟨m, ?_, hshape.rows.trans hrows, hshape.cols.trans hcols, hshape.order.trans horder,
    fun c v r hv hr => ?_⟩
  · rw [matrixOfColumns, hinit]
    exact hset
  · have hcol : (cols.map (columnBits n))[c]? = some (columnBits n v) := by simp [hv]
    exact Nat.zero_add c ▸ hread c _ r _ hcol (getElem?_columnBits hr v)

/-- Every basis value `2^c` of a configured field is an element, and a byte (R110). -/
theorem element_two_pow (hs : Configured s) {c : Nat} (hc : c < s.exp.toNat) :
    (BitVec.ofNat 8 (2 ^ c)).toNat = 2 ^ c ∧ Element s (BitVec.ofNat 8 (2 ^ c)) := by
  obtain ⟨-, h7, ho, -⟩ := hs.2 hs.1
  rw [Nat.one_shiftLeft] at ho
  have hlt : 2 ^ c < 2 ^ s.exp.toNat := Nat.pow_lt_pow_right (by decide) hc
  have hbyte : (BitVec.ofNat 8 (2 ^ c)).toNat = 2 ^ c := by
    rw [BitVec.toNat_ofNat, Nat.mod_eq_of_lt (ho ▸ hlt |>.trans s.order.isLt)]
  exact ⟨hbyte, by rwa [Element, hbyte, ho]⟩

/-- The product of an element and a basis value, as MUL answers it and as TOMATRIX computes it (R110). -/
theorem exists_basis_product (hs : Configured s) (ha : Element s a) {c : Nat} (hc : c < s.exp.toNat) :
    ∃ p : Byte, Answers (.mul a (BitVec.ofNat 8 (2 ^ c))) s p ∧ p.toNat = reduce s.field (clmul a.toNat (2 ^ c)) ∧
      fmul s.field a.toNat (1 <<< c) = .ok p.toNat := by
  obtain ⟨hbyte, hbasis⟩ := element_two_pow hs hc
  obtain ⟨p, hmul, hp⟩ := exists_answers_mul hs ha hbasis
  have hfmul := (answers_mul_iff hs.1).mp hmul
  rw [hbyte] at hp hfmul
  exact ⟨p, hmul, hp, by rw [Nat.one_shiftLeft, hfmul]⟩

/-- A loop of calls that all succeed collects their results. -/
theorem mapM_eq_ok_map {α β ε : Type} {f : α → Except ε β} {g : α → β} {l : List α}
    (h : ∀ x ∈ l, f x = .ok (g x)) : l.mapM f = .ok (l.map g) := by
  induction l with
  | nil => rfl
  | cons x xs ih =>
    obtain ⟨hx, hxs⟩ := List.forall_mem_cons.mp h
    rw [List.mapM_cons, hx, ih hxs]
    rfl

/-- No product of an element and a basis value fails (R110). -/
theorem matrixColumns_of_element (hs : Configured s) (ha : Element s a) :
    matrixColumns s.field a.toNat =
      .ok ((List.range s.exp.toNat).map fun c => reduce s.field (clmul a.toNat (2 ^ c))) := by
  refine mapM_eq_ok_map fun c hc => ?_
  obtain ⟨p, -, hp, hfmul⟩ := exists_basis_product hs ha (List.mem_range.mp hc)
  rw [hfmul, hp]

/-- An operand outside the field fails at the first product, and there is one: `EXP` is at least 1 (R110). -/
theorem matrixColumns_outside (hs : Configured s) (ha : ¬ Element s a) :
    matrixColumns s.field a.toNat = .error .invalidNumber := by
  obtain ⟨h1, -, -, -⟩ := hs.2 hs.1
  obtain ⟨k, hk⟩ := Nat.exists_eq_add_of_le' h1
  rw [matrixColumns, field_exp, hk, List.range_succ_eq_map, List.mapM_cons,
    fmul_outside_left (Nat.le_of_not_lt ha)]
  rfl

/-! ### TOMATRIX -/

theorem exec_toMatrix_of_not_cfgv (h : s.cfgv = false) (a : Byte) : Fails (.toMatrix a) s 7 := by
  simp only [Fails, exec, execToMatrix, requireField_of_not_cfgv h]
  exact raise_eq .notConstructed s

/-- Past the check of `CFGV`, an error of the products is TOMATRIX's (R110). -/
theorem exec_toMatrix_of_error {e : Err} (hc : s.cfgv = true) (h : matrixColumns s.field a.toNat = .error e) :
    exec (.toMatrix a) s = raise e s := by
  simp only [exec, execToMatrix, requireField_of_cfgv hc, operand, h]
  rfl

/-- Past the products, TOMATRIX stores the matrix of its columns (R110). -/
theorem exec_toMatrix_of_columns {cols : List Nat} (hc : s.cfgv = true)
    (h : matrixColumns s.field a.toNat = .ok cols) :
    exec (.toMatrix a) s = storeMatrix s (matrixOfColumns s.exp.toNat cols) := by
  simp only [exec, execToMatrix, requireField_of_cfgv hc, operand, h]
  rfl

theorem fails_toMatrix_outside (hs : Configured s) (ha : ¬ Element s a) : Fails (.toMatrix a) s 2 :=
  (exec_toMatrix_of_error hs.1 (matrixColumns_outside hs ha)).trans (raise_eq .invalidNumber s)

/-- For an element TOMATRIX stores the square row-major matrix whose column c is the bits of its product with `2^c`
(R110). -/
theorem exec_toMatrix_of_element (hs : Configured s) (ha : Element s a) :
    ∃ m : MatrixVal, exec (.toMatrix a) s = .next (answered (writeMatrix m s) 0 0) ∧
      m.rows = s.exp.toNat ∧ m.cols = s.exp.toNat ∧ m.order = .rowMajor ∧
      ∀ r c, r < s.exp.toNat → c < s.exp.toNat →
        m.get r c = .ok (BitVec.ofNat 8 (bitAt (reduce s.field (clmul a.toNat (2 ^ c))) r)) := by
  obtain ⟨h1, -, -, -⟩ := hs.2 hs.1
  obtain ⟨m, hm, hrows, hcols, horder, hget⟩ := matrixOfColumns_spec h1 (cols := (List.range s.exp.toNat).map
    fun c => reduce s.field (clmul a.toNat (2 ^ c))) (by simp)
  refine ⟨m, ?_, hrows, hcols, horder, fun r c hr hc => hget c _ r (by simp [hc]) hr⟩
  rw [exec_toMatrix_of_columns hs.1 (matrixColumns_of_element hs ha), hm]
  exact respondOk_eq 0 _ (by decide)

/-- A shape register holds the 3-bit `EXP` without loss. -/
theorem writeMatrix_eq_of_square {m : MatrixVal} (hrows : m.rows = s.exp.toNat) (hcols : m.cols = s.exp.toNat)
    (horder : m.order = .rowMajor) :
    writeMatrix m s = { s with
      matv := true, mrows := s.exp, mcols := s.exp, morder := .rowMajor, mat := Memory.writeRun [] 0 m.data } := by
  rw [writeMatrix, hrows, hcols, horder, BitVec.ofNat_toNat, BitVec.setWidth_eq]

/-- Settles O25: the guards in order, then `exec_toMatrix_of_element`, whose elements are the bytes of the filled
buffer. -/
theorem toMatrixBuildsTheMatrix : Obligations.ToMatrixBuildsTheMatrix := by
  refine fun s a => ⟨decode_oneOperandWord (i := .toMatrix a) (by simp [Instr.opcode]) rfl,
    fun hc => exec_toMatrix_of_not_cfgv hc a, fails_toMatrix_outside, fun hs ha => ?_⟩
  obtain ⟨m, hexec, hrows, hcols, horder, hget⟩ := exec_toMatrix_of_element hs ha
  rw [writeMatrix_eq_of_square hrows hcols horder] at hexec
  refine ⟨_, hexec, fun r c hr hc => ?_⟩
  obtain ⟨p, hmul, hp, -⟩ := exists_basis_product hs ha hc
  have hread := MatrixVal.read?_fill_of_get (hget r c hr hc)
  rw [← hp, bitAt, Nat.shiftRight_eq_div_pow, horder, hcols] at hread
  exact ⟨p, hmul, hread⟩

/-! ### MGET -/

theorem mgetIndex_of_not_matv (h : s.matv = false) (r c : Nat) : mgetIndex s r c = .error .notConstructed := by
  rw [mgetIndex, requireMatrix_of_not_matv h]
  rfl

theorem mgetIndex_outside {r c : Nat} (hm : s.matv = true) (h : s.mrows.toNat ≤ r ∨ s.mcols.toNat ≤ c) :
    mgetIndex s r c = .error .outOfBounds := by
  rw [mgetIndex, requireMatrix_of_matv hm]
  exact if_pos h

theorem mgetIndex_inside_eq {r c : Nat} (hm : s.matv = true) (hr : r < s.mrows.toNat) (hc : c < s.mcols.toNat) :
    mgetIndex s r c = .ok (matIdx s.morder s.mrows.toNat s.mcols.toNat r c) := by
  rw [mgetIndex, requireMatrix_of_matv hm]
  exact if_neg (by omega)

/-- An error of its checks is what MGET answers (R112). -/
theorem exec_mget_of_error {r c : Byte} {e : Err} (h : mgetIndex s r.toNat c.toNat = .error e) :
    Fails (.mget r c) s (errCode e).toNat := by
  simp only [Fails, exec, execMget_eq_answer, operand, h]
  exact answer_error_eq s e

theorem fails_mget_of_not_matv (hm : s.matv = false) (r c : Byte) : Fails (.mget r c) s 7 :=
  exec_mget_of_error (e := .notConstructed) (mgetIndex_of_not_matv hm _ _)

theorem fails_mget_outside {r c : Byte} (hm : s.matv = true)
    (h : s.mrows.toNat ≤ r.toNat ∨ s.mcols.toNat ≤ c.toNat) : Fails (.mget r c) s 4 :=
  exec_mget_of_error (e := .outOfBounds) (mgetIndex_outside hm h)

/-- Inside the shape MGET answers the element of the matrix (R112). -/
theorem answers_mget {r c : Byte} (hm : s.matv = true) (hr : r.toNat < s.mrows.toNat) (hc : c.toNat < s.mcols.toNat) :
    Answers (.mget r c) s (matrixEntry s r.toNat c.toNat) := by
  simp only [Answers, exec, execMget_eq_answer, operand, mgetIndex_inside_eq hm hr hc]
  exact answer_ok_byte s _

/-- Settles O26: the two checks of MGET, then `answers_mget`. -/
theorem mgetReadsTheBuffer : Obligations.MgetReadsTheBuffer :=
  fun _ r c => ⟨decode_twoOperandWord (i := .mget r c) (by simp [Instr.opcode]),
    fun hm => fails_mget_of_not_matv hm r c, fails_mget_outside, answers_mget⟩

end Sys2Proof.Machine
end

section
/-! SUPPORT. Errors (R120 to R126): which words are illegal, what a failed command leaves, and who raises
`NotConstructedError`. -/

namespace Sys2Proof

variable {w : CmdWord} {i : Instr}

/-! ### Every command's word selects a row of R55 -/

/-- A packed word is its four fields side by side (R52). -/
theorem packWord_eq_append (op rsv b a : Byte) : packWord op rsv b a = op ++ rsv ++ b ++ a := by
  have hfield (n : Nat) (x : Byte) : n <<< 8 ||| x.toNat = n * 2 ^ 8 + x.toNat := by
    rw [← Nat.shiftLeft_add_eq_or_of_lt x.isLt, Nat.shiftLeft_eq]
  apply BitVec.eq_of_toNat_eq
  simp only [packWord_toNat, BitVec.toNat_append, hfield]
  omega

/-- A mask of four fields acts on each field by itself. -/
theorem packWord_and (op rsv b a op' rsv' b' a' : Byte) :
    packWord op rsv b a &&& packWord op' rsv' b' a' =
      packWord (op &&& op') (rsv &&& rsv') (b &&& b') (a &&& a') := by
  simp only [packWord_eq_append]
  change op ++ rsv ++ b ++ a &&& op' ++ rsv' ++ b' ++ a' = (_ : BitVec (8 + 8 + 8 + 8))
  rw [BitVec.and_append, BitVec.and_append, BitVec.and_append]

/-- The mask of a two-operand row keeps the upper two fields. -/
theorem packWord_and_twoOperandMask (op rsv b a : Byte) :
    packWord op rsv b a &&& 0xFFFF0000 = packWord op rsv 0 0 := by
  have hmask : (0xFFFF0000 : CmdWord) = packWord (BitVec.allOnes 8) (BitVec.allOnes 8) 0 0 := rfl
  rw [hmask, packWord_and]
  simp only [BitVec.ofNat_eq_ofNat, BitVec.and_allOnes, BitVec.and_zero]

/-- The mask of a one-operand row keeps the upper three fields. -/
theorem packWord_and_oneOperandMask (op rsv b a : Byte) :
    packWord op rsv b a &&& 0xFFFFFF00 = packWord op rsv b 0 := by
  have hmask : (0xFFFFFF00 : CmdWord) = packWord (BitVec.allOnes 8) (BitVec.allOnes 8) (BitVec.allOnes 8) 0 := rfl
  rw [hmask, packWord_and]
  simp only [BitVec.ofNat_eq_ofNat, BitVec.and_allOnes, BitVec.and_zero]

theorem encode_selects_row (i : Instr) : ∃ row ∈ opcodeRows, encode i &&& row.mask = row.pattern := by
  cases i with
  | add | sub | mul | div | mget =>
    exact ⟨⟨_, _⟩, by simp [opcodeRows, Instr.opcode], packWord_and_twoOperandMask _ _ _ _⟩
  | init | validate | neg | invert | toMatrix | rdcfg =>
    exact ⟨⟨_, _⟩, by simp [opcodeRows, Instr.opcode, Instr.bOperand], packWord_and_oneOperandMask _ _ _ _⟩

/-! ### Every word that is a command is that command's word -/

/-- A word with the four fields of a command is its word (R52). -/
theorem encode_eq_of_fields (hop : (opField w).toNat = i.opcode.toNat) (hrsv : rsvField w = 0)
    (hb : bField w = i.bOperand) (ha : aField w = i.aOperand) : encode i = w := by
  rw [encode, ← hb, ← ha, ← hrsv, ← BitVec.eq_of_toNat_eq hop, packWord_fields]

theorem oneOperand_ok_iff {build : Byte → Instr} :
    oneOperand w build = .ok i ↔ bField w = 0 ∧ build (aField w) = i := by
  unfold oneOperand
  split <;> simp_all

theorem encode_of_decode (h : decode w = .ok i) : encode i = w := by
  unfold decode at h
  split at h
  case isTrue => cases h
  case isFalse hrsv =>
    have hrsv : rsvField w = 0 := not_not.mp hrsv
    split at h
    case h_3 hop | h_5 hop | h_6 hop | h_7 hop | h_10 hop =>
      cases h
      exact encode_eq_of_fields hop hrsv rfl rfl
    case h_1 hop | h_2 hop | h_4 hop | h_8 hop | h_9 hop | h_11 hop =>
      obtain ⟨hb, rfl⟩ := oneOperand_ok_iff.mp h
      exact encode_eq_of_fields hop hrsv hb rfl
    case h_12 => cases h

/-- A word that matches no row is no command's word, so it does not decode (R56). -/
theorem decode_error_of_no_row (h : ∀ row ∈ opcodeRows, w &&& row.mask ≠ row.pattern) : ∃ e, decode w = .error e := by
  cases hw : decode w with
  | ok i =>
    obtain ⟨row, hrow, hselects⟩ := encode_selects_row i
    exact absurd (encode_of_decode hw ▸ hselects) (h row hrow)
  | error e => exact ⟨e, rfl⟩

namespace Machine

variable {s t u : State} {r : RspWord} {rest : List HostEvent}

/-! ### Illegal commands -/

theorem step_command (h : s.host = .command w :: rest) : step s = runWord w { s with host := rest } := by
  simp only [step, h]

/-- Settles O5: such a word does not decode, by `decode_error_of_no_row`; the selectors by `fails_rdcfg_unnamed`. -/
theorem illegalCommandsAnswerCodeSix : Obligations.IllegalCommandsAnswerCodeSix := by
  refine ⟨fun s w rest hhost hrows => ?_, fun s sel hsel => fails_rdcfg_unnamed hsel s⟩
  obtain ⟨e, he⟩ := decode_error_of_no_row hrows
  rw [step_command hhost, runWord_error _ he]
  exact raise_eq .illegalCommand _

/-! ### What a command can do to the state -/

/-- TOMATRIX writes nothing but its response, or fills the buffer and answers the word 0, which is `OK 0` (R110). -/
theorem exec_toMatrix_next_cases {a : Byte} (h : exec (.toMatrix a) s = .next t) :
    (∃ r, t = deliver r s) ∨ ∃ m, t = deliver 0 (writeMatrix m s) := by
  cases hc : s.cfgv with
  | false =>
    cases h.symm.trans (exec_toMatrix_of_not_cfgv hc a)
    exact .inl ⟨_, rfl⟩
  | true =>
    cases hcols : matrixColumns s.field a.toNat with
    | error e =>
      cases h.symm.trans (exec_toMatrix_of_error hc hcols)
      exact .inl ⟨_, rfl⟩
    | ok cols =>
      rw [exec_toMatrix_of_columns hc hcols] at h
      rcases storeMatrix_cases s (matrixOfColumns s.exp.toNat cols) with ⟨m, -, hm⟩ | ⟨e, he⟩ | hstop
      · cases h.symm.trans hm
        exact .inr ⟨m, rfl⟩
      · cases h.symm.trans he
        exact .inl ⟨_, rfl⟩
      · cases h.symm.trans hstop

/-- A command writes nothing but its response, or answers the word 0, which is `OK 0`, after INIT's write of the field
or TOMATRIX's of the matrix. -/
theorem exec_next_cases (h : exec i s = .next t) :
    (∃ r, t = deliver r s) ∨ (∃ F, t = deliver 0 (writeField F s)) ∨ ∃ m, t = deliver 0 (writeMatrix m s) := by
  have hanswer {x : Except Err Nat} (hx : exec i s = answer s x) : ∃ r, t = deliver r s := by
    obtain ⟨r, hr⟩ := answer_cases s x
    cases h.symm.trans (hx.trans hr)
    exact ⟨r, rfl⟩
  cases i with
  | init n =>
    by_cases hn : 1 ≤ n.toNat ∧ n.toNat ≤ 7
    · cases h.symm.trans (exec_init_inside hn.1 hn.2 s)
      exact .inr (.inl ⟨_, rfl⟩)
    · cases h.symm.trans (exec_init_outside (by omega) s)
      exact .inl ⟨_, rfl⟩
  | validate | add | neg | sub | mul | div | invert | rdcfg => exact .inl (hanswer rfl)
  | mget r c => exact .inl (hanswer (execMget_eq_answer r c s))
  | toMatrix a => exact (exec_toMatrix_next_cases h).imp_right .inr

/-- A response to a command that left the others as they were is the one it delivered. -/
theorem eq_of_responds_deliver {q : RspWord} (hu : u.rsps = s.rsps) (h : Responds s (deliver q u) r) : q = r := by
  simpa [Responds, hu] using h

/-- Settles O39: the commands that write state answer `OK`, by `exec_next_cases`. -/
theorem failedCommandWritesNothing : Obligations.FailedCommandWritesNothing := by
  intro i s t r hexec hresponds hstatus
  rcases exec_next_cases hexec with ⟨q, rfl⟩ | ⟨F, rfl⟩ | ⟨m, rfl⟩
  · rw [eq_of_responds_deliver rfl hresponds]
    rfl
  · cases eq_of_responds_deliver (u := writeField F s) rfl hresponds
    exact absurd rfl hstatus
  · cases eq_of_responds_deliver (u := writeMatrix m s) rfl hresponds
    exact absurd rfl hstatus

/-! ### A valid bit is cleared by reset alone -/

/-- A valid bit that is 1 in `s` is 1 in `t`. -/
def KeepsValidBits (s t : State) : Prop := (s.cfgv = true → t.cfgv = true) ∧ (s.matv = true → t.matv = true)

theorem exec_keepsValidBits (h : exec i s = .next t) : KeepsValidBits s t := by
  rcases exec_next_cases h with ⟨r, rfl⟩ | ⟨F, rfl⟩ | ⟨m, rfl⟩
  · exact ⟨id, id⟩
  · exact ⟨fun _ => rfl, id⟩
  · exact ⟨id, fun _ => rfl⟩

theorem runWord_keepsValidBits (h : runWord w s = .next t) : KeepsValidBits s t := by
  cases hw : decode w with
  | ok i => exact exec_keepsValidBits (runWord_ok s hw ▸ h)
  | error e =>
    cases h.symm.trans (runWord_error s hw)
    exact ⟨id, id⟩

theorem step_keepsValidBits (hreset : ∀ f rest, s.host ≠ .reset f :: rest) (h : step s = .next t) :
    KeepsValidBits s t := by
  unfold step at h
  split at h
  case h_1 =>
    cases h
    exact ⟨id, id⟩
  case h_2 w rest _ => exact runWord_keepsValidBits (s := { s with host := rest }) h
  case h_3 f rest hhost => exact absurd hhost (hreset f rest)

/-! ### No function of the field raises `NotConstructedError` -/

section

variable {α β : Type} {e : Err} {f : α → Except Err β}

/-- A sequence raises an error only if one of its parts does. -/
theorem bind_ne_error {x : Except Err α} (hx : x ≠ .error e) (hf : ∀ v, f v ≠ .error e) : (x >>= f) ≠ .error e := by
  cases x with
  | ok v => exact hf v
  | error e' => exact fun h => hx (by cases h; rfl)

theorem mapM_ne_error (hf : ∀ v, f v ≠ .error e) (l : List α) : l.mapM f ≠ .error e := by
  induction l with
  | nil => exact nofun
  | cons v l ih =>
    rw [List.mapM_cons]
    exact bind_ne_error (hf v) fun _ => bind_ne_error ih fun _ => nofun

/-- A loop of calls has one result per call. -/
theorem length_of_mapM_ok {l : List α} {vs : List β} (h : l.mapM f = .ok vs) : vs.length = l.length := by
  induction l generalizing vs with
  | nil =>
    cases h
    rfl
  | cons v l ih =>
    rw [List.mapM_cons] at h
    cases hv : f v with
    | error e =>
      rw [hv] at h
      cases h
    | ok y =>
      cases hl : l.mapM f with
      | error e =>
        rw [hv, hl] at h
        cases h
      | ok ys =>
        rw [hv, hl] at h
        cases h
        exact congrArg Nat.succ (ih hl)

end

section

variable (F : FieldCfg)

theorem validate_ne_notConstructed (v : Nat) : validate F v ≠ .error .notConstructed := by
  unfold validate
  split <;> exact nofun

theorem fmul_ne_notConstructed (x y : Nat) : fmul F x y ≠ .error .notConstructed :=
  bind_ne_error (validate_ne_notConstructed F x) fun _ =>
    bind_ne_error (validate_ne_notConstructed F y) fun _ => validate_ne_notConstructed F _

theorem finvSearch_ne_notConstructed (x : Nat) (cands : List Nat) :
    finvSearch F x cands ≠ .error .notConstructed := by
  induction cands with
  | nil => exact nofun
  | cons cand rest ih =>
    refine bind_ne_error (fmul_ne_notConstructed F x cand) fun p => ?_
    split
    · exact validate_ne_notConstructed F cand
    · exact ih

theorem finv_ne_notConstructed (x : Nat) : finv F x ≠ .error .notConstructed := by
  unfold finv
  split
  · exact nofun
  · exact finvSearch_ne_notConstructed F x _

theorem matrixColumns_ne_notConstructed (a : Nat) : matrixColumns F a ≠ .error .notConstructed :=
  mapM_ne_error (fun _ => fmul_ne_notConstructed F a _) _

end

/-! ### Commands that do not answer status 7 -/

/-- A command that delivers another response word than `7 * 2^8` does not answer status 7. -/
theorem not_fails_of_deliver (hexec : exec i s = .next (deliver r u)) (hu : u.rsps = s.rsps) (hr : r ≠ 0x0700) :
    ¬ Fails i s 7 := by
  intro h
  have heq : deliver r u = answered s 7 0 := Host.Outcome.next.inj (hexec.symm.trans h)
  exact hr (eq_of_responds_deliver hu (congrArg State.rsps heq))

/-- The response of a success stays below `2^8`. -/
theorem rspWord_okCode_ne (v : Byte) : rspWord okCode v ≠ 0x0700 := by
  intro h
  have hv := v.isLt
  have hword := congrArg BitVec.toNat h
  simp [rspWord, okCode] at hword
  omega

theorem rspWord_errCode_ne {e : Err} (he : e ≠ .notConstructed) : rspWord (errCode e) 0 ≠ 0x0700 := by
  cases e with
  | notConstructed => exact absurd rfl he
  | invalidExponent | invalidNumber | noInverse | outOfBounds | allocation | illegalCommand => decide

theorem not_fails_of_raise {e : Err} (hexec : exec i s = raise e s) (he : e ≠ .notConstructed) : ¬ Fails i s 7 :=
  not_fails_of_deliver hexec rfl (rspWord_errCode_ne he)

/-- A command that ends by `answer` answers status 7 only for `NotConstructedError`. -/
theorem not_fails_of_answer {x : Except Err Nat} (hexec : exec i s = answer s x) (hx : x ≠ .error .notConstructed) :
    ¬ Fails i s 7 := by
  cases x with
  | ok v => exact not_fails_of_deliver hexec rfl (rspWord_okCode_ne _)
  | error e => exact not_fails_of_raise hexec fun he => hx (he ▸ rfl)

theorem not_fails_init (s : State) (n : Byte) : ¬ Fails (.init n) s 7 := by
  by_cases hn : 1 ≤ n.toNat ∧ n.toNat ≤ 7
  · exact not_fails_of_deliver (exec_init_inside hn.1 hn.2 s) rfl (by decide)
  · exact not_fails_of_deliver (exec_init_outside (by omega) s) rfl (by decide)

/-- Once `CFGV` is 1, the products of TOMATRIX do not raise the error, and its calls of the container raise none: they
fill the matrix, or have no meaning where `EXP` is 0 (log entry 12). -/
theorem not_fails_toMatrix (hc : s.cfgv = true) (a : Byte) : ¬ Fails (.toMatrix a) s 7 := by
  cases hcols : matrixColumns s.field a.toNat with
  | error e =>
    exact not_fails_of_raise (exec_toMatrix_of_error hc hcols)
      fun he => matrixColumns_ne_notConstructed s.field a.toNat (he ▸ hcols)
  | ok cols =>
    have hexec := exec_toMatrix_of_columns hc hcols
    have hlength : cols.length = s.exp.toNat := by simpa using length_of_mapM_ok hcols
    rcases Nat.eq_zero_or_pos s.exp.toNat with h0 | hpos
    · rw [h0] at hexec
      exact fun h => nomatch hexec.symm.trans h
    · obtain ⟨m, hm, -⟩ := matrixOfColumns_spec hpos hlength
      rw [hm] at hexec
      exact not_fails_of_deliver (u := writeMatrix m s) hexec rfl (by decide)

theorem not_fails_mget (hm : s.matv = true) (r c : Byte) : ¬ Fails (.mget r c) s 7 := by
  by_cases h : r.toNat < s.mrows.toNat ∧ c.toNat < s.mcols.toNat
  · exact not_fails_of_deliver (answers_mget hm h.1 h.2) rfl (rspWord_okCode_ne _)
  · exact not_fails_of_deliver (fails_mget_outside hm (by omega)) rfl (by decide)

/-- A selector whose register can be read does not answer status 7. -/
theorem not_fails_rdcfg {sel : Byte} {x : Selector} {v : Nat} (h : selectorOf sel = some x)
    (hv : readRegister s x = .ok v) : ¬ Fails (.rdcfg sel) s 7 :=
  not_fails_of_answer (exec_rdcfg_named h s) (hv ▸ nofun)

theorem not_fails_rdcfg_unnamed {sel : Byte} (h : 7 ≤ sel.toNat) (s : State) : ¬ Fails (.rdcfg sel) s 7 :=
  not_fails_of_deliver (fails_rdcfg_unnamed h s) rfl (by decide)

theorem not_fails_rdcfg_status {sel : Byte} (h : sel.toNat = 3) (s : State) : ¬ Fails (.rdcfg sel) s 7 := by
  obtain rfl : sel = 3 := BitVec.eq_of_toNat_eq h
  exact not_fails_rdcfg (x := .status) rfl rfl

/-! ### The clauses of R124 -/

theorem exec_mul_of_not_cfgv (h : s.cfgv = false) (a b : Byte) : Fails (.mul a b) s 7 := by
  simp only [Fails, exec, execMul, requireField_of_not_cfgv h]
  exact answer_error_eq s .notConstructed

/-- The commands that check `CFGV` (R74, R75). -/
def fieldCommands (a b : Byte) : List Instr :=
  [.validate a, .add a b, .neg a, .sub a b, .mul a b, .div a b, .invert a, .toMatrix a, .rdcfg 0, .rdcfg 1, .rdcfg 2]

/-- The commands that check `MATV` (R74, R112). -/
def matrixCommands (a b : Byte) : List Instr := [.mget a b, .rdcfg 4, .rdcfg 5, .rdcfg 6]

theorem fails_fieldCommands (hc : s.cfgv = false) (a b : Byte) :
    ∀ i ∈ fieldCommands a b, Fails i s 7 := by
  have hread := readRegister_of_not_cfgv hc
  simp only [fieldCommands, List.forall_mem_cons] at hread ⊢
  obtain ⟨hexp, horder, hdivisor, -⟩ := hread
  exact ⟨exec_validate_of_not_cfgv hc a, exec_add_of_not_cfgv hc a b,
    (exec_neg_eq_exec_validate a s).trans (exec_validate_of_not_cfgv hc a),
    (exec_sub_eq_exec_add a b s).trans (exec_add_of_not_cfgv hc a b), exec_mul_of_not_cfgv hc a b,
    exec_div_of_not_cfgv hc a b, exec_invert_of_not_cfgv hc a, exec_toMatrix_of_not_cfgv hc a, fails_rdcfg rfl hexp,
    fails_rdcfg rfl horder, fails_rdcfg rfl hdivisor, nofun⟩

theorem fails_matrixCommands (hm : s.matv = false) (a b : Byte) :
    ∀ i ∈ matrixCommands a b, Fails i s 7 := by
  have hread := readRegister_of_not_matv hm
  simp only [matrixCommands, List.forall_mem_cons] at hread ⊢
  obtain ⟨hrows, hcols, horder, -⟩ := hread
  exact ⟨fails_mget_of_not_matv hm a b, fails_rdcfg rfl hrows, fails_rdcfg rfl hcols, fails_rdcfg rfl horder, nofun⟩

theorem not_fails_fieldCommands (hc : s.cfgv = true) (a b : Byte) :
    ∀ i ∈ fieldCommands a b, ¬ Fails i s 7 := by
  obtain ⟨hexp, horder, hdivisor⟩ := readRegister_of_cfgv hc
  have hvalidate := validate_ne_notConstructed s.field
  have hadd := bind_ne_error (hvalidate a.toNat) fun x => bind_ne_error (hvalidate b.toNat) fun y => hvalidate (x ^^^ y)
  simp only [fieldCommands, List.forall_mem_cons]
  exact ⟨not_fails_of_answer (exec_validate_of_cfgv hc a) (hvalidate _),
    not_fails_of_answer (exec_add_of_cfgv hc a b) hadd,
    not_fails_of_answer ((exec_neg_eq_exec_validate a s).trans (exec_validate_of_cfgv hc a)) (hvalidate _),
    not_fails_of_answer ((exec_sub_eq_exec_add a b s).trans (exec_add_of_cfgv hc a b)) hadd,
    not_fails_of_answer (exec_mul_of_cfgv hc a b) (fmul_ne_notConstructed _ _ _),
    not_fails_of_answer (exec_div_of_cfgv hc a b)
      (bind_ne_error (finv_ne_notConstructed _ _) fun _ => fmul_ne_notConstructed _ _ _),
    not_fails_of_answer (exec_invert_of_cfgv hc a) (finv_ne_notConstructed _ _),
    not_fails_toMatrix hc a, not_fails_rdcfg rfl hexp, not_fails_rdcfg rfl horder,
    not_fails_rdcfg rfl hdivisor, nofun⟩

theorem not_fails_matrixCommands (hm : s.matv = true) (a b : Byte) :
    ∀ i ∈ matrixCommands a b, ¬ Fails i s 7 := by
  obtain ⟨hrows, hcols, horder⟩ := readRegister_of_matv hm
  simp only [matrixCommands, List.forall_mem_cons]
  exact ⟨not_fails_mget hm a b, not_fails_rdcfg rfl hrows, not_fails_rdcfg rfl hcols,
    not_fails_rdcfg rfl horder, nofun⟩

/-- Settles O44: each check of a valid bit raises the error, no function behind it does, and a step that is no reset
writes a valid bit only to set it. -/
theorem notConstructedFollowsTheValidBits : Obligations.NotConstructedFollowsTheValidBits :=
  ⟨fun _ a b hc => fails_fieldCommands hc a b, fun _ a b hm => fails_matrixCommands hm a b,
    fun _ a b hc => not_fails_fieldCommands hc a b, fun _ a b hm => not_fails_matrixCommands hm a b,
    fun s n _ hsel => ⟨not_fails_init s n, hsel.elim (not_fails_rdcfg_status · s) (not_fails_rdcfg_unnamed · s)⟩,
    fun _ _ => step_keepsValidBits⟩

end Machine
end Sys2Proof
end

section
/-! SUPPORT. The encoding as a whole (R52, R55, R56): commands, the rows of the table and the words the decoder rejects;
the step (R62), and the reset state (R28, R140). -/

namespace Sys2Proof

variable {w : CmdWord}

/-! ### Commands and words -/

/-- Settles O1 by the fields of the packed word. -/
theorem decodeOfEncodeIsIdentity : Obligations.DecodeOfEncodeIsIdentity := decode_encode

/-- Settles O2: the four fields of a word that decodes are those of its command. -/
theorem encodeOfDecodeIsIdentity : Obligations.EncodeOfDecodeIsIdentity := fun _ _ => encode_of_decode

/-- Settles O4: each word is the one its command encodes to. -/
theorem decodeReadsTheSpecsWords : Obligations.DecodeReadsTheSpecsWords := by
  have hword : ∀ p ∈ ([(0x01000003, .init 3), (0x02000007, .validate 7), (0x03000305, .add 5 3), (0x04000005, .neg 5),
      (0x05000305, .sub 5 3), (0x06000305, .mul 5 3), (0x07000504, .div 4 5), (0x08000005, .invert 5),
      (0x09000002, .toMatrix 2), (0x0A000102, .mget 2 1), (0x0B000002, .rdcfg 2)] : List (CmdWord × Instr)),
      encode p.2 = p.1 := by decide
  intro p hp
  rw [← hword p hp, decode_encode]

/-! ### The words of a row -/

theorem packWord_inj {op rsv b a op' rsv' b' a' : Byte} (h : packWord op rsv b a = packWord op' rsv' b' a') :
    op = op' ∧ rsv = rsv' ∧ b = b' ∧ a = a' := by
  refine ⟨?_, ?_, ?_, ?_⟩
  · simpa using congrArg opField h
  · simpa using congrArg rsvField h
  · simpa using congrArg bField h
  · simpa using congrArg aField h

/-- A word that matches the row of a two-operand command is the command's word with the operands of the word (R55). -/
theorem encode_eq_of_twoOperandMatch {i : Instr} (h : w &&& 0xFFFF0000 = packWord i.opcode 0 0 0)
    (hb : i.bOperand = bField w) (ha : i.aOperand = aField w) : encode i = w := by
  rw [← packWord_fields w, packWord_and_twoOperandMask] at h
  obtain ⟨hop, hrsv, -, -⟩ := packWord_inj h
  exact encode_eq_of_fields (congrArg _ hop) hrsv hb.symm ha.symm

/-- In the row of a one-operand command the second operand is matched too (R55). -/
theorem encode_eq_of_oneOperandMatch {i : Instr} (h : w &&& 0xFFFFFF00 = packWord i.opcode 0 0 0)
    (hb : i.bOperand = 0) (ha : i.aOperand = aField w) : encode i = w := by
  rw [← packWord_fields w, packWord_and_oneOperandMask] at h
  obtain ⟨hop, hrsv, hb', -⟩ := packWord_inj h
  exact encode_eq_of_fields (congrArg _ hop) hrsv (hb'.trans hb.symm) ha.symm

/-- The match of a row is its opcode, with zeros below (R55). -/
theorem opcodeRows_eq_packed :
    opcodeRows =
      [⟨0xFFFFFF00, packWord 0x01 0 0 0⟩, ⟨0xFFFFFF00, packWord 0x02 0 0 0⟩, ⟨0xFFFF0000, packWord 0x03 0 0 0⟩,
       ⟨0xFFFFFF00, packWord 0x04 0 0 0⟩, ⟨0xFFFF0000, packWord 0x05 0 0 0⟩, ⟨0xFFFF0000, packWord 0x06 0 0 0⟩,
       ⟨0xFFFF0000, packWord 0x07 0 0 0⟩, ⟨0xFFFFFF00, packWord 0x08 0 0 0⟩, ⟨0xFFFFFF00, packWord 0x09 0 0 0⟩,
       ⟨0xFFFF0000, packWord 0x0A 0 0 0⟩, ⟨0xFFFFFF00, packWord 0x0B 0 0 0⟩] := by decide

/-- A word that matches a row is the word of a command of that row (R55). -/
theorem exists_encode_of_match {row : OpcodeRow} (hrow : row ∈ opcodeRows) (h : w &&& row.mask = row.pattern) :
    ∃ i, encode i = w := by
  simp only [opcodeRows_eq_packed, List.mem_cons, List.not_mem_nil, or_false] at hrow
  rcases hrow with rfl | rfl | rfl | rfl | rfl | rfl | rfl | rfl | rfl | rfl | rfl
  · exact ⟨.init (aField w), encode_eq_of_oneOperandMatch h rfl rfl⟩
  · exact ⟨.validate (aField w), encode_eq_of_oneOperandMatch h rfl rfl⟩
  · exact ⟨.add (aField w) (bField w), encode_eq_of_twoOperandMatch h rfl rfl⟩
  · exact ⟨.neg (aField w), encode_eq_of_oneOperandMatch h rfl rfl⟩
  · exact ⟨.sub (aField w) (bField w), encode_eq_of_twoOperandMatch h rfl rfl⟩
  · exact ⟨.mul (aField w) (bField w), encode_eq_of_twoOperandMatch h rfl rfl⟩
  · exact ⟨.div (aField w) (bField w), encode_eq_of_twoOperandMatch h rfl rfl⟩
  · exact ⟨.invert (aField w), encode_eq_of_oneOperandMatch h rfl rfl⟩
  · exact ⟨.toMatrix (aField w), encode_eq_of_oneOperandMatch h rfl rfl⟩
  · exact ⟨.mget (aField w) (bField w), encode_eq_of_twoOperandMatch h rfl rfl⟩
  · exact ⟨.rdcfg (aField w), encode_eq_of_oneOperandMatch h rfl rfl⟩

/-- The decoder rejects exactly the words that match no row (R55, R56). -/
theorem decode_error_iff_no_row :
    (∃ e, decode w = .error e) ↔ ∀ row ∈ opcodeRows, w &&& row.mask ≠ row.pattern := by
  refine ⟨fun ⟨e, he⟩ row hrow hmatch => ?_, decode_error_of_no_row⟩
  obtain ⟨i, rfl⟩ := exists_encode_of_match hrow hmatch
  exact nomatch he.symm.trans (decode_encode i)

/-! ### The three reasons to reject a word -/

theorem opField_toNat (w : CmdWord) : (opField w).toNat = w.toNat / 2 ^ 24 := by
  have := w.isLt
  rw [opField, BitVec.toNat_ofNat]
  omega

theorem oneOperand_error_iff {build : Byte → Instr} : (∃ e, oneOperand w build = .error e) ↔ bField w ≠ 0 := by
  unfold oneOperand
  split <;> simp_all

theorem twoOperands_ne_error (build : Byte → Byte → Instr) : ¬ ∃ e, twoOperands w build = .error e := nofun

/-- The decoder rejects a word for its opcode, for its reserved byte, or for a second operand where the command has only
one (R56). -/
theorem decode_error_iff :
    (∃ e, decode w = .error e) ↔
      ((opField w).toNat = 0 ∨ 0x0C ≤ (opField w).toNat) ∨ rsvField w ≠ 0 ∨
        ((opField w).toNat ∈ [0x01, 0x02, 0x04, 0x08, 0x09, 0x0B] ∧ bField w ≠ 0) := by
  unfold decode
  split
  case isTrue hrsv => exact iff_of_true ⟨_, rfl⟩ (.inr (.inl hrsv))
  case isFalse hrsv =>
    split
    case h_3 hop | h_5 hop | h_6 hop | h_7 hop | h_10 hop =>
      exact iff_of_false (twoOperands_ne_error _) (by simp [hop, not_not.mp hrsv])
    case h_1 hop | h_2 hop | h_4 hop | h_8 hop | h_9 hop | h_11 hop =>
      rw [oneOperand_error_iff]
      simp [hop, not_not.mp hrsv]
    case h_12 => exact iff_of_true ⟨_, rfl⟩ (.inl (by grind))

/-- Settles O3 by the two descriptions of what the decoder rejects, `decode_error_iff` in the fields of the word and
`decode_error_iff_no_row` in the rows of the table. -/
theorem illegalWordsMatchNoRow : Obligations.IllegalWordsMatchNoRow := by
  refine fun w => ⟨?_, decode_error_iff_no_row⟩
  have hrsv : rsvField w ≠ 0 ↔ w.toNat / 2 ^ 16 % 256 ≠ 0 := by
    rw [ne_eq, ← BitVec.toNat_inj]
    rfl
  have hb : bField w ≠ 0 ↔ w.toNat / 2 ^ 8 % 256 ≠ 0 := by
    rw [ne_eq, ← BitVec.toNat_inj]
    rfl
  rw [decode_error_iff, opField_toNat, hrsv, hb]

namespace Machine

/-! ### The step -/

/-- Settles O6: the step takes the word, and the word runs as its command. -/
theorem stepRunsTheDecodedCommand : Obligations.StepRunsTheDecodedCommand :=
  fun _ _ _ _ hhost hw => (step_command hhost).trans (runWord_ok _ hw)

/-- The host's view of the decoder reads a word as the decoder does. -/
theorem decode_of_decodeTableWord {nbits n : Nat} {i : Instr} (h : decodeTableWord nbits n = some i) :
    decode (BitVec.ofNat 32 (n % 2 ^ nbits)) = .ok i := by
  unfold decodeTableWord at h
  split at h
  case h_1 j hj => rw [hj, Option.some.inj h]
  case h_2 => cases h

/-- Settles O7: taking the word from the front of the host's list leaves the list as it was. -/
theorem presentedWordRunsNext : Obligations.PresentedWordRunsNext :=
  fun s _ _ _ h => (step_command (s := s.withFetchWord _ _) rfl).trans (runWord_ok _ (decode_of_decodeTableWord h))

theorem step_reset {s : State} {f : Option CmdWord} {rest : List HostEvent} (h : s.host = .reset f :: rest) :
    step s = coreReset { s with host := rest } := by
  simp only [step, h]

/-! ### Reset -/

/-- Settles O11: reset keeps of the state the host's two lists alone. -/
theorem resetAbandonsTheCommandInProgress : Obligations.ResetAbandonsTheCommandInProgress := fun _ _ _ => step_reset

/-- Settles O10: with both valid bits 0 every guarded register and MGET fail, and STATUS reads 0. -/
theorem resetLeavesNothingConstructed : Obligations.ResetLeavesNothingConstructed := by
  have hfield := readRegister_of_not_cfgv (s := State.reset) rfl
  have hmatrix := readRegister_of_not_matv (s := State.reset) rfl
  simp only [List.forall_mem_cons] at hfield hmatrix
  obtain ⟨hexp, horder, hdivisor, -⟩ := hfield
  obtain ⟨hrows, hcols, hmorder, -⟩ := hmatrix
  refine ⟨rfl, rfl, rfl, rfl, fun _ => rfl, answers_rdcfg (x := .status) rfl rfl, ?_, fails_mget_of_not_matv rfl⟩
  simp only [List.forall_mem_cons]
  exact ⟨fails_rdcfg rfl hexp, fails_rdcfg rfl horder, fails_rdcfg rfl hdivisor, fails_rdcfg rfl hrows,
    fails_rdcfg rfl hcols, fails_rdcfg rfl hmorder, nofun⟩

/-- Settles O36: both valid bits are 0, and the memory lists nothing. -/
theorem resetMeetsTheInvariant : Obligations.ResetMeetsTheInvariant := ⟨nofun, nofun, Memory.wf_reset⟩

/-- Settles O18 by the order of the guards of SUB and the text of NEG. -/
theorem subIsAddAndNegIsValidate : Obligations.SubIsAddAndNegIsValidate :=
  fun s a b => ⟨exec_sub_eq_exec_add a b s, exec_neg_eq_exec_validate a s⟩

end Machine
end Sys2Proof
end

section
/-! SUPPORT. Noninterference of the registers left unspecified (R28, U10): a valid bit that is 0 hides the registers
behind it from every command. -/

namespace Sys2Proof.Machine

variable {s t : State} {α : Type}

/-! ### The guards hide the registers -/

/-- Where `CFGV` is 1, states no host can tell apart have one field. -/
theorem sameField_of_sameToHost (hst : SameToHost s t) (hc : s.cfgv = true) : SameField s t := by
  obtain ⟨hcfgv, -, -, -, hfield, -⟩ := hst
  obtain ⟨hexp, horder, hdivisor⟩ := hfield hc
  exact ⟨hcfgv, hexp, horder, hdivisor⟩

/-- Where `MATV` is 1, states no host can tell apart have one matrix. -/
theorem sameMatrix_of_sameToHost (hst : SameToHost s t) (hm : s.matv = true) : SameMatrix s t := by
  obtain ⟨-, hmatv, -, -, -, hmatrix⟩ := hst
  obtain ⟨hrows, hcols, horder, hmat⟩ := hmatrix hm
  exact ⟨hmatv, hrows, hcols, horder, hmat⟩

/-- A computation behind the check of `CFGV` has one result in both states (R75). -/
theorem requireField_bind_congr (hst : SameToHost s t) (k : FieldCfg → Except Err α) :
    (requireField s >>= fun _ => k s.field) = requireField t >>= fun _ => k t.field := by
  cases hc : s.cfgv with
  | false =>
    rw [requireField_of_not_cfgv hc, requireField_of_not_cfgv (hst.1 ▸ hc)]
    rfl
  | true =>
    have hfield := sameField_of_sameToHost hst hc
    rw [hfield.requireField_congr, hfield.field_eq]

/-- What fails where `MATV` is 0, and depends on the matrix alone where it is 1, has one result in both states
(R112). -/
theorem matrixRead_congr {x : State → Except Err α} (hst : SameToHost s t)
    (hoff : ∀ u : State, u.matv = false → x u = .error .notConstructed) (hon : SameMatrix s t → x s = x t) :
    x s = x t := by
  cases hm : s.matv with
  | false => rw [hoff s hm, hoff t (hst.2.1 ▸ hm)]
  | true => exact hon (sameMatrix_of_sameToHost hst hm)

/-- Every register reads alike, behind its valid bit (R74). -/
theorem readRegister_congr (hst : SameToHost s t) (x : Selector) : readRegister s x = readRegister t x := by
  cases x with
  | exp => exact requireField_bind_congr hst fun F => pure F.exp
  | order => exact requireField_bind_congr hst fun F => pure F.order
  | divisor => exact requireField_bind_congr hst fun F => pure F.divisor
  | status => simp only [readRegister, statusView, hst.1, hst.2.1]
  | mrows | mcols | morder =>
    refine matrixRead_congr (x := fun u => readRegister u _) hst (fun u hu => ?_) fun h => ?_
    · exact readRegister_of_not_matv hu _ (by simp)
    · simp only [readRegister, h.requireMatrix_congr, h.mrows, h.mcols, h.morder]

/-- What MGET answers: the byte at its index, past its checks (R112). -/
def mgetRead (s : State) (r c : Nat) : Except Err Nat := (mgetIndex s r c).map fun addr => (s.mat.read addr).toNat

theorem exec_mget_eq_answer (r c : Byte) (s : State) :
    exec (.mget r c) s = answer s (mgetRead s r.toNat c.toNat) := execMget_eq_answer r c s

theorem mgetRead_of_not_matv (hm : s.matv = false) (r c : Nat) : mgetRead s r c = .error .notConstructed := by
  rw [mgetRead, mgetIndex_of_not_matv hm]
  rfl

theorem SameMatrix.mgetRead_congr (h : SameMatrix s t) (r c : Nat) : mgetRead s r c = mgetRead t r c := by
  rw [mgetRead, mgetRead, h.mgetIndex_congr, h.mat]

/-! ### The commands end alike -/

/-- If the outcome `o` is a next state, so is `p`, and no host can tell the two apart. -/
def NextAlike (o p : Host.Outcome State Fault Refusal) : Prop :=
  ∀ s', o = .next s' → ∃ t', p = .next t' ∧ SameToHost s' t'

theorem nextAlike_next (hst : SameToHost s t) : NextAlike (.next s) (.next t) := by
  intro s' h
  cases h
  exact ⟨t, rfl, hst⟩

/-- The same response keeps two states alike. -/
theorem sameToHost_deliver (hst : SameToHost s t) (r : RspWord) : SameToHost (deliver r s) (deliver r t) := by
  obtain ⟨hcfgv, hmatv, hhost, hrsps, hfield, hmatrix⟩ := hst
  exact ⟨hcfgv, hmatv, hhost, congrArg (· ++ [r]) hrsps, hfield, hmatrix⟩

theorem sameToHost_writeField (hst : SameToHost s t) (F : FieldCfg) : SameToHost (writeField F s) (writeField F t) := by
  obtain ⟨-, hmatv, hhost, hrsps, -, hmatrix⟩ := hst
  exact ⟨rfl, hmatv, hhost, hrsps, fun _ => ⟨rfl, rfl, rfl⟩, hmatrix⟩

theorem sameToHost_writeMatrix (hst : SameToHost s t) (m : MatrixVal) :
    SameToHost (writeMatrix m s) (writeMatrix m t) := by
  obtain ⟨hcfgv, -, hhost, hrsps, hfield, -⟩ := hst
  exact ⟨hcfgv, rfl, hhost, hrsps, hfield, fun _ => ⟨rfl, rfl, rfl, rfl⟩⟩

theorem raise_nextAlike (hst : SameToHost s t) (e : Err) : NextAlike (raise e s) (raise e t) :=
  nextAlike_next (sameToHost_deliver hst _)

theorem respondOk_nextAlike (hst : SameToHost s t) (v : Nat) : NextAlike (respondOk v s) (respondOk v t) :=
  nextAlike_next (sameToHost_deliver hst _)

theorem answer_nextAlike (hst : SameToHost s t) {x y : Except Err Nat} (h : x = y) :
    NextAlike (answer s x) (answer t y) := by
  subst h
  cases x with
  | ok v => exact respondOk_nextAlike hst v
  | error e => exact raise_nextAlike hst e

theorem storeMatrix_nextAlike (hst : SameToHost s t) (x : Except MatrixStop MatrixVal) :
    NextAlike (storeMatrix s x) (storeMatrix t x) := by
  match x with
  | .ok m => exact respondOk_nextAlike (sameToHost_writeMatrix hst m) 0
  | .error (.raised e) => exact raise_nextAlike hst e
  | .error .noMeaning => exact nofun

theorem toMatrix_nextAlike (hst : SameToHost s t) (a : Byte) :
    NextAlike (exec (.toMatrix a) s) (exec (.toMatrix a) t) := by
  cases hc : s.cfgv with
  | false =>
    rw [exec_toMatrix_of_not_cfgv hc, exec_toMatrix_of_not_cfgv (hst.1 ▸ hc)]
    exact nextAlike_next (sameToHost_deliver hst _)
  | true =>
    have hfield := sameField_of_sameToHost hst hc
    cases hcols : matrixColumns s.field a.toNat with
    | error e =>
      rw [exec_toMatrix_of_error hc hcols, exec_toMatrix_of_error (hst.1 ▸ hc) (hfield.field_eq ▸ hcols)]
      exact raise_nextAlike hst e
    | ok cols =>
      rw [exec_toMatrix_of_columns hc hcols, exec_toMatrix_of_columns (hst.1 ▸ hc) (hfield.field_eq ▸ hcols),
        hfield.exp]
      exact storeMatrix_nextAlike hst _

theorem exec_nextAlike (hst : SameToHost s t) (i : Instr) : NextAlike (exec i s) (exec i t) := by
  cases i with
  | init n =>
    by_cases hn : 1 ≤ n.toNat ∧ n.toNat ≤ 7
    · rw [exec_init_inside hn.1 hn.2, exec_init_inside hn.1 hn.2]
      exact nextAlike_next (sameToHost_deliver (sameToHost_writeField hst _) _)
    · rw [exec_init_outside (by omega), exec_init_outside (by omega)]
      exact nextAlike_next (sameToHost_deliver hst _)
  | validate a => exact answer_nextAlike hst (requireField_bind_congr hst fun F => validate F (operand a))
  | add a b =>
    exact answer_nextAlike hst (requireField_bind_congr hst fun F =>
      validate F (operand a) >>= fun x => validate F (operand b) >>= fun y => validate F (x ^^^ y))
  | neg a => exact answer_nextAlike hst (requireField_bind_congr hst fun F => validate F (operand a))
  | sub a b =>
    exact answer_nextAlike hst (requireField_bind_congr hst fun F =>
      validate F (operand b) >>= fun y => validate F (operand a) >>= fun x =>
        validate F y >>= fun y => validate F (x ^^^ y))
  | mul a b => exact answer_nextAlike hst (requireField_bind_congr hst fun F => fmul F (operand a) (operand b))
  | div a b =>
    exact answer_nextAlike hst (requireField_bind_congr hst fun F => finv F (operand b) >>= fmul F (operand a))
  | invert a => exact answer_nextAlike hst (requireField_bind_congr hst fun F => finv F (operand a))
  | toMatrix a => exact toMatrix_nextAlike hst a
  | mget r c =>
    rw [exec_mget_eq_answer, exec_mget_eq_answer]
    exact answer_nextAlike hst (matrixRead_congr (x := fun u => mgetRead u r.toNat c.toNat) hst
      (fun u hu => mgetRead_of_not_matv hu _ _) fun h => h.mgetRead_congr _ _)
  | rdcfg sel =>
    refine answer_nextAlike hst ?_
    cases selectorOf sel with
    | none => rfl
    | some x => exact readRegister_congr hst x

/-- Taking the host's next input keeps two states alike. -/
theorem sameToHost_withHost (hst : SameToHost s t) (rest : List HostEvent) :
    SameToHost { s with host := rest } { t with host := rest } := by
  obtain ⟨hcfgv, hmatv, -, hrsps, hfield, hmatrix⟩ := hst
  exact ⟨hcfgv, hmatv, rfl, hrsps, hfield, hmatrix⟩

theorem runWord_nextAlike (hst : SameToHost s t) (w : CmdWord) : NextAlike (runWord w s) (runWord w t) := by
  cases hw : decode w with
  | ok i =>
    rw [runWord_ok s hw, runWord_ok t hw]
    exact exec_nextAlike hst i
  | error e =>
    rw [runWord_error s hw, runWord_error t hw]
    exact raise_nextAlike hst _

theorem step_nextAlike (hst : SameToHost s t) : NextAlike (step s) (step t) := by
  have hhost := hst.2.2.1
  match hs : s.host with
  | [] =>
    simp only [step, ← hhost, hs]
    exact nextAlike_next hst
  | .command w :: rest =>
    rw [step_command hs, step_command (hhost ▸ hs)]
    exact runWord_nextAlike (sameToHost_withHost hst rest) w
  | .reset _ :: rest =>
    rw [step_reset hs, step_reset (hhost ▸ hs)]
    exact nextAlike_next ⟨rfl, rfl, rfl, hst.2.2.2.1, nofun, nofun⟩

/-- Settles O12: each command reads the unspecified registers behind the check of their valid bit, and writes them
whole. -/
theorem unspecifiedRegistersCannotBeObserved : Obligations.UnspecifiedRegistersCannotBeObserved :=
  fun _ _ s' hst h => step_nextAlike hst s' h

end Sys2Proof.Machine
end

section
/-! SUPPORT. The one response of a command (R51, R54, R120, R126): its form, the one stop of the machine, and the
response port, which no command reads. -/

namespace Sys2Proof.Machine

variable {s : State} {i : Instr}

/-! ### The nine commands that only answer -/

/-- The commands whose meaning is a response and nothing else (R73, R74, R80 to R82, R90, R101, R102, R112). -/
def answeringCommands (a b : Byte) : List Instr :=
  [.validate a, .add a b, .neg a, .sub a b, .mul a b, .div a b, .invert a, .mget a b, .rdcfg a]

theorem answeringCommands_answer (s : State) (a b : Byte) :
    ∀ i ∈ answeringCommands a b, ∃ x, exec i s = answer s x := by
  simp only [answeringCommands, List.forall_mem_cons]
  exact ⟨⟨_, rfl⟩, ⟨_, rfl⟩, ⟨_, rfl⟩, ⟨_, rfl⟩, ⟨_, rfl⟩, ⟨_, rfl⟩, ⟨_, rfl⟩, ⟨_, exec_mget_eq_answer a b s⟩, ⟨_, rfl⟩,
    nofun⟩

/-- Settles O40: these commands end by `answer`. -/
theorem answeringCommandsWriteNothing : Obligations.AnsweringCommandsWriteNothing := by
  intro s a b i hi
  obtain ⟨x, hx⟩ := answeringCommands_answer s a b i hi
  exact hx ▸ answer_cases s x

/-! ### The errors of the field functions -/

section

variable (F : FieldCfg) {e : Err}

theorem validate_ne_error (he : e ≠ .invalidNumber) (v : Nat) : validate F v ≠ .error e := by
  unfold validate
  split
  · exact nofun
  · exact fun h => he (Except.error.inj h).symm

theorem fmul_ne_error (he : e ≠ .invalidNumber) (x y : Nat) : fmul F x y ≠ .error e :=
  bind_ne_error (validate_ne_error F he x) fun _ =>
    bind_ne_error (validate_ne_error F he y) fun _ => validate_ne_error F he _

theorem finvSearch_ne_error (he : e ≠ .invalidNumber) (he' : e ≠ .noInverse) (x : Nat) (cands : List Nat) :
    finvSearch F x cands ≠ .error e := by
  induction cands with
  | nil => exact fun h => he' (Except.error.inj h).symm
  | cons cand rest ih =>
    refine bind_ne_error (fmul_ne_error F he x cand) fun p => ?_
    split
    · exact validate_ne_error F he cand
    · exact ih

theorem finv_ne_error (he : e ≠ .invalidNumber) (he' : e ≠ .noInverse) (x : Nat) : finv F x ≠ .error e := by
  unfold finv
  split
  · exact fun h => he' (Except.error.inj h).symm
  · exact finvSearch_ne_error F he he' x _

theorem matrixColumns_ne_error (he : e ≠ .invalidNumber) (a : Nat) : matrixColumns F a ≠ .error e :=
  mapM_ne_error (fun _ => fmul_ne_error F he a _) _

end

/-! ### The form of a response -/

/-- A response of the spec's form (R54, R120): four zero bits, a status that is not the reserved 5, and no result beside
an error. -/
def WellFormedResponse (r : RspWord) : Prop :=
  r.toNat / 256 ∈ [0, 1, 2, 3, 4, 6, 7] ∧ (r.toNat / 256 ≠ 0 → r.toNat % 256 = 0)

theorem wellFormedResponse_ok (v : Byte) : WellFormedResponse (rspWord okCode v) := by
  have hv := v.isLt
  have hword : (rspWord okCode v).toNat = v.toNat := by
    have hcode : okCode.toNat = 0 := rfl
    simp only [rspWord, hcode, BitVec.toNat_ofNat]
    omega
  have hstatus : v.toNat / 256 = 0 := Nat.div_eq_of_lt hv
  simp [WellFormedResponse, hword, hstatus]

theorem wellFormedResponse_error {e : Err} (he : e ≠ .allocation) : WellFormedResponse (rspWord (errCode e) 0) := by
  unfold WellFormedResponse
  cases e with
  | allocation => exact absurd rfl he
  | invalidExponent | invalidNumber | noInverse | outOfBounds | illegalCommand | notConstructed => decide

/-- The outcome `o` is a next state with one well-formed response more than `s`, and the same inputs of the host to
come. -/
def RespondsWell (s : State) (o : Host.Outcome State Fault Refusal) : Prop :=
  ∃ t r, o = .next t ∧ t.host = s.host ∧ Responds s t r ∧ WellFormedResponse r

theorem raise_respondsWell (s : State) {e : Err} (he : e ≠ .allocation) : RespondsWell s (raise e s) :=
  ⟨_, _, rfl, rfl, rfl, wellFormedResponse_error he⟩

theorem respondOk_respondsWell (s : State) (v : Nat) : RespondsWell s (respondOk v s) :=
  ⟨_, _, rfl, rfl, rfl, wellFormedResponse_ok _⟩

theorem answer_respondsWell (s : State) {x : Except Err Nat} (hx : x ≠ .error .allocation) :
    RespondsWell s (answer s x) := by
  cases x with
  | ok v => exact respondOk_respondsWell s v
  | error e => exact raise_respondsWell s fun he => hx (he ▸ rfl)

theorem requireField_ne_allocation (s : State) : requireField s ≠ .error .allocation := by
  unfold requireField
  split <;> exact nofun

theorem requireMatrix_ne_allocation (s : State) : requireMatrix s ≠ .error .allocation := by
  unfold requireMatrix
  split <;> exact nofun

theorem readRegister_ne_allocation (s : State) (x : Selector) : readRegister s x ≠ .error .allocation := by
  cases x with
  | exp | order | divisor => exact bind_ne_error (requireField_ne_allocation s) fun _ => nofun
  | status => exact nofun
  | mrows | mcols | morder => exact bind_ne_error (requireMatrix_ne_allocation s) fun _ => nofun

theorem exec_rdcfg_respondsWell (sel : Byte) (s : State) : RespondsWell s (exec (.rdcfg sel) s) := by
  refine answer_respondsWell s ?_
  cases selectorOf sel with
  | none => exact nofun
  | some x => exact readRegister_ne_allocation s x

theorem exec_mget_respondsWell (r c : Byte) (s : State) : RespondsWell s (exec (.mget r c) s) := by
  cases hm : s.matv with
  | false =>
    rw [fails_mget_of_not_matv hm]
    exact raise_respondsWell s (e := .notConstructed) nofun
  | true =>
    by_cases h : r.toNat < s.mrows.toNat ∧ c.toNat < s.mcols.toNat
    · rw [answers_mget hm h.1 h.2, ← answer_ok_byte]
      exact respondOk_respondsWell s _
    · rw [fails_mget_outside hm (by omega)]
      exact raise_respondsWell s (e := .outOfBounds) nofun

theorem exec_init_respondsWell (n : Byte) (s : State) : RespondsWell s (exec (.init n) s) := by
  by_cases hn : 1 ≤ n.toNat ∧ n.toNat ≤ 7
  · rw [exec_init_inside hn.1 hn.2]
    exact respondOk_respondsWell (writeField _ s) 0
  · rw [exec_init_outside (by omega)]
    exact raise_respondsWell s (e := .invalidExponent) nofun

/-! ### The one stop -/

/-- With `EXP = 0` there are no products, and TOMATRIX asks the container for a matrix without a shape (U6). -/
theorem exec_toMatrix_of_exp_zero (hc : s.cfgv = true) (h0 : s.exp = 0) (a : Byte) :
    exec (.toMatrix a) s = .refused .containerUnstated := by
  have hexp : s.exp.toNat = 0 := congrArg BitVec.toNat h0
  have hcols : matrixColumns s.field a.toNat = .ok [] := by
    rw [matrixColumns, field_exp, hexp]
    rfl
  rw [exec_toMatrix_of_columns hc hcols, hexp]
  rfl

theorem exec_toMatrix_respondsWell (h0 : s.cfgv = true → s.exp ≠ 0) (a : Byte) :
    RespondsWell s (exec (.toMatrix a) s) := by
  cases hc : s.cfgv with
  | false =>
    rw [exec_toMatrix_of_not_cfgv hc]
    exact raise_respondsWell s (e := .notConstructed) nofun
  | true =>
    cases hcols : matrixColumns s.field a.toNat with
    | error e =>
      rw [exec_toMatrix_of_error hc hcols]
      exact raise_respondsWell s fun he => matrixColumns_ne_error s.field (e := .allocation) nofun _ (he ▸ hcols)
    | ok cols =>
      have hpos : s.exp.toNat ≠ 0 := fun h => h0 hc (BitVec.eq_of_toNat_eq h)
      obtain ⟨m, hm, -⟩ :=
        matrixOfColumns_spec (Nat.one_le_iff_ne_zero.mpr hpos) (by simpa using length_of_mapM_ok hcols)
      rw [exec_toMatrix_of_columns hc hcols, hm]
      exact respondOk_respondsWell (writeMatrix m s) 0

/-- A command responds, or is the TOMATRIX that is refused (R145; log entries 11, 12). -/
theorem exec_respondsWell_or_refused (i : Instr) (s : State) :
    RespondsWell s (exec i s) ∨
      exec i s = .refused .containerUnstated ∧ s.cfgv = true ∧ s.exp = 0 ∧ ∃ a, i = .toMatrix a := by
  have hreq := requireField_ne_allocation s
  have hvalidate := validate_ne_error s.field (e := .allocation) nofun
  have hfmul := fmul_ne_error s.field (e := .allocation) nofun
  have hfinv := finv_ne_error s.field (e := .allocation) nofun nofun
  cases i with
  | init n => exact .inl (exec_init_respondsWell n s)
  | validate a | neg a => exact .inl (answer_respondsWell s (bind_ne_error hreq fun _ => hvalidate _))
  | add a b =>
    exact .inl (answer_respondsWell s (bind_ne_error hreq fun _ => bind_ne_error (hvalidate _) fun _ =>
      bind_ne_error (hvalidate _) fun _ => hvalidate _))
  | sub a b =>
    exact .inl (answer_respondsWell s (bind_ne_error hreq fun _ => bind_ne_error (hvalidate _) fun _ =>
      bind_ne_error (hvalidate _) fun _ => bind_ne_error (hvalidate _) fun _ => hvalidate _))
  | mul a b => exact .inl (answer_respondsWell s (bind_ne_error hreq fun _ => hfmul _ _))
  | div a b =>
    exact .inl (answer_respondsWell s (bind_ne_error hreq fun _ => bind_ne_error (hfinv _) fun _ => hfmul _ _))
  | invert a => exact .inl (answer_respondsWell s (bind_ne_error hreq fun _ => hfinv _))
  | toMatrix a =>
    by_cases h : s.cfgv = true ∧ s.exp = 0
    · exact .inr ⟨exec_toMatrix_of_exp_zero h.1 h.2 a, h.1, h.2, a, rfl⟩
    · exact .inl (exec_toMatrix_respondsWell (fun hc h0 => h ⟨hc, h0⟩) a)
  | mget r c => exact .inl (exec_mget_respondsWell r c s)
  | rdcfg sel => exact .inl (exec_rdcfg_respondsWell sel s)

/-- A word responds, or is that of the TOMATRIX that is refused. -/
theorem runWord_respondsWell_or_refused (w : CmdWord) (s : State) :
    RespondsWell s (runWord w s) ∨
      runWord w s = .refused .containerUnstated ∧ s.cfgv = true ∧ s.exp = 0 ∧ ∃ a, decode w = .ok (.toMatrix a) := by
  cases hw : decode w with
  | ok i =>
    rw [runWord_ok s hw]
    simpa only [Except.ok.injEq] using exec_respondsWell_or_refused i s
  | error e =>
    rw [runWord_error s hw]
    exact .inl (raise_respondsWell s nofun)

/-- Settles O8: the response is that of the word, which `runWord_respondsWell_or_refused` gives; waiting and reset
respond nothing. -/
theorem everyCommandGetsOneResponse : Obligations.EveryCommandGetsOneResponse := by
  intro s h0
  match hs : s.host with
  | [] => exact ⟨s, by simp only [step, hs]; rfl, fun _ => rfl, nofun, nofun⟩
  | .command w :: rest =>
    rcases runWord_respondsWell_or_refused w { s with host := rest } with
      ⟨t, r, hnext, hhost, hr, hform⟩ | ⟨-, hc, h, -⟩
    · refine ⟨t, (step_command hs).trans hnext, nofun, fun w' rest' h => ?_, nofun⟩
      cases h
      exact ⟨hhost, r, hr, hform⟩
    · exact absurd h (h0 hc)
  | .reset f :: rest =>
    refine ⟨_, step_reset hs, nofun, nofun, fun f' rest' h => ?_⟩
    cases h
    exact ⟨rfl, rfl⟩

/-- A step that does not end in a next state runs the TOMATRIX that is refused (log entries 11, 12). -/
theorem step_next_or_refused (s : State) :
    (∃ t, step s = .next t) ∨
      step s = .refused .containerUnstated ∧ s.cfgv = true ∧ s.exp = 0 ∧
        ∃ w a rest, s.host = .command w :: rest ∧ decode w = .ok (.toMatrix a) := by
  match hs : s.host with
  | [] => exact .inl ⟨s, by simp only [step, hs]; rfl⟩
  | .command w :: rest =>
    rw [step_command hs]
    rcases runWord_respondsWell_or_refused w { s with host := rest } with ⟨t, -, hnext, -⟩ | ⟨hstop, hc, h0, a, ha⟩
    · exact .inl ⟨t, hnext⟩
    · exact .inr ⟨hstop, hc, h0, w, a, rest, rfl, ha⟩
  | .reset f :: rest => exact .inl ⟨_, step_reset hs⟩

/-- Settles O9 by `step_next_or_refused` and `exec_toMatrix_of_exp_zero`. -/
theorem stepStopsOnlyWithoutAnExponent : Obligations.StepStopsOnlyWithoutAnExponent := by
  refine ⟨fun s f h => ?_, fun s q h => ?_, fun s a hc h0 => exec_toMatrix_of_exp_zero hc h0 a⟩
  · rcases step_next_or_refused s with ⟨t, ht⟩ | ⟨hstop, -⟩
    · exact nomatch h.symm.trans ht
    · exact nomatch h.symm.trans hstop
  · rcases step_next_or_refused s with ⟨t, ht⟩ | ⟨hstop, hrest⟩
    · exact nomatch h.symm.trans ht
    · exact ⟨Host.Outcome.refused.inj (h.symm.trans hstop), hrest⟩

/-! ### The response port is only appended to -/

/-- If `o` completes from `s` it adds one response, and it does the same whatever responses came before. -/
def AppendsResponse (o : State → Host.Outcome State Fault Refusal) (s : State) : Prop :=
  ∀ u, o s = .next u →
    ∃ q, Responds s u q ∧ ∀ earlier, o { s with rsps := earlier } = .next { u with rsps := earlier ++ [q] }

/-- It is enough to know what `o` does whatever responses came before. -/
theorem AppendsResponse.congr {o o' : State → Host.Outcome State Fault Refusal}
    (ho' : AppendsResponse o' s) (h : ∀ earlier, o { s with rsps := earlier } = o' { s with rsps := earlier }) :
    AppendsResponse o s := by
  intro u hu
  obtain ⟨q, hq, happend⟩ := ho' u ((h s.rsps).symm.trans hu)
  exact ⟨q, hq, fun earlier => (h earlier).trans (happend earlier)⟩

theorem answer_appendsResponse (x : Except Err Nat) (s : State) : AppendsResponse (fun s => answer s x) s := by
  intro u h
  cases x <;> cases h <;> exact ⟨_, rfl, fun _ => rfl⟩

theorem raise_appendsResponse (e : Err) (s : State) : AppendsResponse (raise e) s :=
  answer_appendsResponse (.error e) s

theorem storeMatrix_appendsResponse (x : Except MatrixStop MatrixVal) (s : State) :
    AppendsResponse (fun s => storeMatrix s x) s := by
  match x with
  | .ok _ =>
    intro u h
    cases h
    exact ⟨_, rfl, fun _ => rfl⟩
  | .error (.raised e) => exact raise_appendsResponse e s
  | .error .noMeaning => exact nofun

theorem exec_init_appendsResponse (n : Byte) (s : State) : AppendsResponse (exec (.init n)) s := by
  by_cases hn : 1 ≤ n.toNat ∧ n.toNat ≤ 7
  · intro u h
    cases (exec_init_inside hn.1 hn.2 s).symm.trans h
    exact ⟨_, rfl, fun _ => exec_init_inside hn.1 hn.2 _⟩
  · exact (raise_appendsResponse .invalidExponent s).congr fun _ => exec_init_outside (by omega) _

theorem exec_toMatrix_appendsResponse (a : Byte) (s : State) : AppendsResponse (exec (.toMatrix a)) s := by
  cases hc : s.cfgv with
  | false =>
    exact (raise_appendsResponse .notConstructed s).congr fun earlier =>
      exec_toMatrix_of_not_cfgv (s := { s with rsps := earlier }) hc a
  | true =>
    cases hcols : matrixColumns s.field a.toNat with
    | error e =>
      exact (raise_appendsResponse e s).congr fun earlier =>
        exec_toMatrix_of_error (s := { s with rsps := earlier }) hc hcols
    | ok cols =>
      exact (storeMatrix_appendsResponse (matrixOfColumns s.exp.toNat cols) s).congr fun earlier =>
        exec_toMatrix_of_columns (s := { s with rsps := earlier }) hc hcols

/-- No command reads the responses that came before (R147). -/
theorem exec_appendsResponse (i : Instr) (s : State) : AppendsResponse (exec i) s := by
  cases i with
  | init n => exact exec_init_appendsResponse n s
  | validate | add | neg | sub | mul | div | invert | rdcfg => exact answer_appendsResponse _ s
  | toMatrix a => exact exec_toMatrix_appendsResponse a s
  | mget r c =>
    exact (answer_appendsResponse (mgetRead s r.toNat c.toNat) s).congr fun earlier =>
      exec_mget_eq_answer r c { s with rsps := earlier }

/-- Settles O45: the failed command has changed the responses alone, which no command reads. -/
theorem errorsLeaveNoTrace : Obligations.ErrorsLeaveNoTrace := by
  intro i j s t u r hi hr hstatus hj
  obtain ⟨q, hq, happend⟩ := exec_appendsResponse j s u hj
  rw [failedCommandWritesNothing i s t r hi hr hstatus]
  exact ⟨q, hq, happend _⟩

end Sys2Proof.Machine
end

section
/-! SUPPORT. The Matrix container as a whole (R31 to R35): the linear index, rows, columns and slices, in either storage
order. Rows are the columns of the transposed matrix. -/

namespace Sys2Proof.Machine

variable {m m' : MatrixVal} {r c k : Nat} {v : Byte} {vs values : List Byte}

/-! ### The linear index -/

/-- Every byte is that of a coordinate (R31). -/
theorem exists_matIdx_eq (o : StorageOrder) {rows cols : Nat} (hk : k < rows * cols) :
    ∃ r c, r < rows ∧ c < cols ∧ matIdx o rows cols r c = k := by
  cases o with
  | rowMajor =>
    exact ⟨k / cols, k % cols, Nat.div_lt_of_lt_mul (Nat.mul_comm rows cols ▸ hk),
      Nat.mod_lt _ (Nat.pos_of_mul_pos_left (Nat.zero_lt_of_lt hk)), Nat.div_add_mod' k cols⟩
  | columnMajor =>
    exact ⟨k % rows, k / rows, Nat.mod_lt _ (Nat.pos_of_mul_pos_right (Nat.zero_lt_of_lt hk)),
      Nat.div_lt_of_lt_mul hk, Nat.div_add_mod' k rows⟩

/-- Settles O46 by `matIdx_lt`, `exists_matIdx_eq` and `matIdx_inj`. -/
theorem linearIndexIsABijection : Obligations.LinearIndexIsABijection := by
  refine ⟨fun _ _ _ _ => ⟨rfl, rfl⟩, fun o rows cols => ⟨fun r hr c hc => matIdx_lt o hr hc, fun k hk => ?_⟩⟩
  obtain ⟨r, c, hr, hc, hidx⟩ := exists_matIdx_eq o hk
  refine ⟨(r, c), ⟨hr, hc, hidx⟩, fun ⟨r', c'⟩ ⟨hr', hc', hidx'⟩ => ?_⟩
  obtain ⟨rfl, rfl⟩ := matIdx_inj hr' hc' hr hc (hidx'.trans hidx.symm)
  rfl

/-! ### A fresh matrix, and one element -/

/-- Settles O47: every byte of a fresh matrix is 0. -/
theorem matrixInitIsZeroFilled : Obligations.MatrixInitIsZeroFilled := by
  refine fun rows cols o => ⟨fun hrows hcols => ?_, fun h => if_pos h⟩
  refine ⟨⟨rows, cols, o, List.replicate (rows * cols) 0⟩, if_neg (by omega), by simp [MatrixVal.valid, hrows, hcols],
    rfl, rfl, rfl, fun r hr c hc => MatrixVal.get_ok_iff.mpr ⟨hr, hc, ?_⟩⟩
  exact List.getElem?_replicate_of_lt (matIdx_lt o hr hc)

/-- Settles O48 by `get_of_set` and `get_of_set_ne`. -/
theorem matrixGetAfterSet : Obligations.MatrixGetAfterSet := by
  refine fun m r c v hm => ⟨fun h => ⟨MatrixVal.get_outside h, MatrixVal.set_outside m r c v h⟩, fun hr hc => ?_⟩
  have hset := MatrixVal.set_inside m r c v hr hc
  refine ⟨_, hset, (MatrixVal.sameShape_of_set hset).valid hm, MatrixVal.get_of_set hm hset, fun r' _ c' _ hne => ?_⟩
  exact MatrixVal.get_of_set_ne hset fun ⟨hr', hc'⟩ => hne (by rw [hr', hc'])

/-! ### Loops of calls -/

section

variable {α β ε : Type} {f : α → Except ε β}

/-- A sequence succeeds when both its parts do. -/
theorem bind_eq_ok_iff {x : Except ε α} {y : β} : (x >>= f) = .ok y ↔ ∃ a, x = .ok a ∧ f a = .ok y := by
  cases x with
  | ok a => exact ⟨fun h => ⟨a, rfl, h⟩, fun ⟨_, ha, h⟩ => by cases ha; exact h⟩
  | error e => exact ⟨fun h => (nomatch h), fun ⟨_, ha, _⟩ => (nomatch ha)⟩

/-- A loop of calls answers `ys` exactly when the calls answer its elements in order. -/
theorem mapM_eq_ok_iff {l : List α} {ys : List β} : l.mapM f = .ok ys ↔ l.map f = ys.map .ok := by
  induction l generalizing ys with
  | nil =>
    rw [List.mapM_nil, List.map_nil, eq_comm (a := []), List.map_eq_nil_iff]
    exact ⟨fun h => (Except.ok.inj h).symm, fun h => h ▸ rfl⟩
  | cons x xs ih =>
    simp only [List.mapM_cons, bind_eq_ok_iff, ih, List.map_cons]
    constructor
    · rintro ⟨y, hy, ys', hys', h⟩
      cases h
      rw [hy, hys', List.map_cons]
    · intro h
      cases ys with
      | nil => cases h
      | cons y ys =>
        obtain ⟨hy, hys⟩ := List.cons.inj h
        exact ⟨y, hy, ys, hys, rfl⟩

/-- A loop of calls that each answer has an answer. -/
theorem exists_mapM_ok {l : List α} (h : ∀ x ∈ l, ∃ y, f x = .ok y) :
    ∃ ys, l.mapM f = .ok ys := by
  induction l with
  | nil => exact ⟨[], rfl⟩
  | cons x xs ih =>
    obtain ⟨⟨y, hy⟩, hxs⟩ := List.forall_mem_cons.mp h
    obtain ⟨ys, hys⟩ := ih hxs
    exact ⟨y :: ys, by rw [List.mapM_cons, hy, hys]; rfl⟩

end

namespace MatrixVal

/-- Every coordinate inside the shape of a valid matrix has an element. -/
theorem exists_get (hm : m.valid = true) (hr : r < m.rows) (hc : c < m.cols) : ∃ v, m.get r c = .ok v := by
  have hlt : matIdx m.order m.rows m.cols r c < m.data.length := length_data_of_valid hm ▸ matIdx_lt m.order hr hc
  exact ⟨_, get_ok_iff.mpr ⟨hr, hc, List.getElem?_eq_getElem hlt⟩⟩

/-! ### Columns -/

/-- A column lists its elements in order (R34). -/
theorem getCol_ok_iff (hc : c < m.cols) :
    m.getCol c = .ok vs ↔ vs.length = m.rows ∧ ∀ r (h : r < vs.length), m.get r c = .ok vs[r] := by
  rw [getCol, if_neg (Nat.not_le_of_lt hc), mapM_eq_ok_iff, List.ext_getElem_iff]
  simp only [List.length_map, List.length_range, List.getElem_map, List.getElem_range, eq_comm (a := m.rows)]
  exact and_congr_right fun hlength => ⟨fun h r hr => h r (hlength ▸ hr) hr, fun h r _ hr => h r hr⟩

theorem exists_getCol (hm : m.valid = true) (hc : c < m.cols) : ∃ vs, m.getCol c = .ok vs := by
  rw [getCol, if_neg (Nat.not_le_of_lt hc)]
  exact exists_mapM_ok fun r hr => exists_get hm (List.mem_range.mp hr) hc

/-- Equal elements make equal columns. -/
theorem getCol_congr (hshape : SameShape m' m) (hget : ∀ r, m'.get r c = m.get r c) : m'.getCol c = m.getCol c := by
  simp only [getCol, hshape.rows, hshape.cols, hget]

/-- A column overwritten whole is read back, and the others are what they were (R34). -/
theorem setCol_getCol (hm : m.valid = true) (hk : k < m.cols) (hlength : values.length = m.rows) :
    ∃ m', m.setCol k values = .ok m' ∧ m'.valid = true ∧ m'.getCol k = .ok values ∧
      ∀ c, c ≠ k → m'.getCol c = m.getCol c := by
  obtain ⟨m', hset, hshape, hread, hkeep⟩ := setCol_spec hm hk hlength
  refine ⟨m', hset, hshape.valid hm, ?_, fun c hne => getCol_congr hshape fun r => hkeep r c hne⟩
  exact (getCol_ok_iff (hshape.cols ▸ hk)).mpr
    ⟨hlength.trans hshape.rows.symm, fun r h => hread r _ (List.getElem?_eq_getElem h)⟩

end MatrixVal

/-! ### The transposed matrix -/

/-- The other storage order. -/
def StorageOrder.flip : StorageOrder → StorageOrder
  | .rowMajor => .columnMajor
  | .columnMajor => .rowMajor

/-- Flipping the storage order exchanges rows and columns in the linear index (R31). -/
@[simp] theorem matIdx_flip (o : StorageOrder) (rows cols r c : Nat) :
    matIdx o.flip cols rows c r = matIdx o rows cols r c := by cases o <;> rfl

namespace MatrixVal

/-- The matrix with rows and columns exchanged: the same bytes in the other storage order. -/
def transpose (m : MatrixVal) : MatrixVal := ⟨m.cols, m.rows, m.order.flip, m.data⟩

@[simp] theorem transpose_rows (m : MatrixVal) : m.transpose.rows = m.cols := rfl
@[simp] theorem transpose_cols (m : MatrixVal) : m.transpose.cols = m.rows := rfl

@[simp] theorem transpose_transpose (m : MatrixVal) : m.transpose.transpose = m := by
  obtain ⟨rows, cols, order, data⟩ := m
  cases order <;> rfl

@[simp] theorem transpose_valid (m : MatrixVal) : m.transpose.valid = m.valid := by
  rw [valid, valid, transpose, Nat.mul_comm m.cols, Bool.and_comm (decide (1 ≤ m.cols))]

@[simp] theorem transpose_get (m : MatrixVal) (r c : Nat) : m.transpose.get c r = m.get r c := by
  simp only [get, transpose, matIdx_flip, or_comm]

theorem transpose_set (m : MatrixVal) (r c : Nat) (v : Byte) :
    m.transpose.set c r v = (m.set r c v).map transpose := by
  by_cases h : m.rows ≤ r ∨ m.cols ≤ c
  · rw [set_outside m r c v h, set_outside m.transpose c r v h.symm]
    rfl
  · rw [set_inside m r c v (by omega) (by omega), set_inside m.transpose c r v (by simp; omega) (by simp; omega)]
    simp only [transpose, matIdx_flip]
    rfl

@[simp] theorem transpose_getCol (m : MatrixVal) (r : Nat) : m.transpose.getCol r = m.getRow r := by
  simp only [getCol, getRow, transpose_get, transpose_rows, transpose_cols]

theorem transpose_setColFrom (vs : List Byte) (m : MatrixVal) (r k : Nat) :
    m.transpose.setColFrom r k vs = (m.setRowFrom r k vs).map transpose := by
  induction vs generalizing m k with
  | nil => rfl
  | cons v vs ih =>
    rw [setColFrom, setRowFrom, transpose_set]
    cases m.set r k v with
    | ok m₁ => exact ih m₁ (k + 1)
    | error e => rfl

theorem transpose_setCol (m : MatrixVal) (r : Nat) (values : List Byte) :
    m.transpose.setCol r values = (m.setRow r values).map transpose := by
  simp only [setCol, setRow, transpose_rows, transpose_cols, transpose_setColFrom]
  split
  · rfl
  · split <;> rfl

/-! ### Rows -/

theorem getRow_ok_iff (hr : r < m.rows) :
    m.getRow r = .ok vs ↔ vs.length = m.cols ∧ ∀ c (h : c < vs.length), m.get r c = .ok vs[c] := by
  simpa using getCol_ok_iff (m := m.transpose) (vs := vs) hr

theorem exists_getRow (hm : m.valid = true) (hr : r < m.rows) : ∃ vs, m.getRow r = .ok vs := by
  simpa using exists_getCol (m := m.transpose) (by simpa using hm) hr

/-- A row overwritten whole is read back, and the others are what they were (R34). -/
theorem setRow_getRow (hm : m.valid = true) (hk : k < m.rows) (hlength : values.length = m.cols) :
    ∃ m', m.setRow k values = .ok m' ∧ m'.valid = true ∧ m'.getRow k = .ok values ∧
      ∀ r, r ≠ k → m'.getRow r = m.getRow r := by
  obtain ⟨t, hset, hvalid, hread, hkeep⟩ := setCol_getCol (m := m.transpose) (by simpa using hm) hk hlength
  rw [transpose_setCol] at hset
  cases hrow : m.setRow k values with
  | error e =>
    rw [hrow] at hset
    cases hset
  | ok m' =>
    rw [hrow] at hset
    cases hset
    simp only [transpose_valid, transpose_getCol] at hvalid hread hkeep
    exact ⟨m', rfl, hvalid, hread, hkeep⟩

end MatrixVal

/-- Settles O49: columns by `setCol_getCol` and `getCol_ok_iff`, rows as the columns of the transposed matrix. -/
theorem matrixRowsAndColumns : Obligations.MatrixRowsAndColumns := by
  refine fun m k values hm => ⟨fun h => ⟨if_pos h, if_pos h⟩, fun h => ⟨if_pos h, if_pos h⟩, fun hk hlength => ?_,
    fun hk hlength => ?_, fun hk => ?_, fun hk => ?_⟩
  · obtain ⟨m', hset, hvalid, hread, hkeep⟩ := MatrixVal.setRow_getRow hm hk hlength
    exact ⟨m', hset, hvalid, hread, fun r _ hne => hkeep r hne⟩
  · obtain ⟨m', hset, hvalid, hread, hkeep⟩ := MatrixVal.setCol_getCol hm hk hlength
    exact ⟨m', hset, hvalid, hread, fun c _ hne => hkeep c hne⟩
  · obtain ⟨vs, hvs⟩ := MatrixVal.exists_getRow hm hk
    exact ⟨vs, hvs, (MatrixVal.getRow_ok_iff hk).mp hvs⟩
  · obtain ⟨vs, hvs⟩ := MatrixVal.exists_getCol hm hk
    exact ⟨vs, hvs, (MatrixVal.getCol_ok_iff hk).mp hvs⟩

/-! ### Slices -/

namespace MatrixVal

/-- The bytes of a valid matrix are its slices one after another (R35). -/
theorem length_data_eq_count_mul_span (hm : m.valid = true) : m.data.length = m.count * m.span := by
  rw [length_data_of_valid hm, count, span]
  cases m.order with
  | rowMajor => rfl
  | columnMajor => exact Nat.mul_comm _ _

/-- A slice inside the matrix ends before the end of its bytes. -/
theorem slice_end_le (hm : m.valid = true) (hk : k < m.count) : k * m.span + m.span ≤ m.data.length := by
  rw [length_data_eq_count_mul_span hm, ← Nat.succ_mul]
  exact Nat.mul_le_mul_right _ hk

theorem getSlice_inside (hk : k < m.count) : m.getSlice k = .ok ((m.data.drop (k * m.span)).take m.span) :=
  if_neg (Nat.not_le_of_lt hk)

/-- `vs` is slice k when it has its length and its bytes (R35). -/
theorem getSlice_eq_of_getElem? (hm : m.valid = true) (hk : k < m.count) (hlength : vs.length = m.span)
    (hvs : ∀ i (h : i < vs.length), m.data[k * m.span + i]? = some vs[i]) : m.getSlice k = .ok vs := by
  have hend := slice_end_le hm hk
  rw [getSlice_inside hk]
  refine congrArg _ (List.ext_getElem (by simp; omega) fun i hi hi' => ?_)
  have hbyte := hvs i hi'
  rw [List.getElem?_eq_getElem (by omega)] at hbyte
  simpa using hbyte

/-- Under RowMajor a slice is a row (R35). -/
theorem getSlice_eq_getRow (hm : m.valid = true) (ho : m.order = .rowMajor) : m.getSlice k = m.getRow k := by
  have hcount : m.count = m.rows := by rw [count, ho]
  have hspan : m.span = m.cols := by rw [span, ho]
  by_cases hk : k < m.rows
  · obtain ⟨vs, hvs⟩ := exists_getRow hm hk
    obtain ⟨hlength, hget⟩ := (getRow_ok_iff hk).mp hvs
    rw [hvs]
    refine getSlice_eq_of_getElem? hm (hcount ▸ hk) (hlength.trans hspan.symm) fun i h => ?_
    obtain ⟨-, -, hbyte⟩ := get_ok_iff.mp (hget i h)
    rw [ho] at hbyte
    rw [hspan]
    exact hbyte
  · rw [getSlice, getRow, if_pos (by omega), if_pos (by omega)]

theorem getSlice_transpose (m : MatrixVal) (k : Nat) : m.transpose.getSlice k = m.getSlice k := by
  have hcount : m.transpose.count = m.count := by
    simp only [count, transpose]
    cases m.order <;> rfl
  have hspan : m.transpose.span = m.span := by
    simp only [span, transpose]
    cases m.order <;> rfl
  rw [getSlice, getSlice, hcount, hspan]
  rfl

/-- Under ColumnMajor a slice is a column (R35). -/
theorem getSlice_eq_getCol (hm : m.valid = true) (ho : m.order = .columnMajor) : m.getSlice k = m.getCol k := by
  have hflip : m.transpose.order = .rowMajor := by rw [transpose, ho]; rfl
  rw [← getSlice_transpose, getSlice_eq_getRow (by simpa using hm) hflip, ← transpose_getCol,
    transpose_transpose]

/-! ### A slice overwritten -/

/-- A slice is overwritten whole: byte i of the slice is value i, and the bytes outside it are what they were (R35). -/
theorem getElem?_splice {data : List Byte} {start : Nat} (h : start + values.length ≤ data.length) (i : Nat) :
    (data.take start ++ values ++ data.drop (start + values.length))[i]? =
      if start ≤ i ∧ i < start + values.length then values[i - start]? else data[i]? := by
  simp only [List.append_assoc, List.getElem?_append, List.length_take, List.getElem?_take, List.getElem?_drop,
    Nat.min_eq_left (Nat.le_of_add_right_le h)]
  by_cases h1 : i < start
  · rw [if_pos h1, if_pos h1, if_neg (by omega)]
  · rw [if_neg h1]
    by_cases h2 : i < start + values.length
    · rw [if_pos (by omega), if_pos (by omega)]
    · rw [if_neg (by omega), if_neg (by omega)]
      congr 1
      omega

theorem setSlice_inside (hk : k < m.count) (hlength : values.length = m.span) :
    m.setSlice k values =
      .ok { m with data := m.data.take (k * m.span) ++ values ++ m.data.drop (k * m.span + values.length) } := by
  rw [setSlice, if_neg (Nat.not_le_of_lt hk), if_neg hlength.not_lt, if_neg hlength.not_gt, hlength]

/-- No byte belongs to two slices. -/
theorem slice_disjoint {span j i : Nat} (hi : i < span) (hne : j ≠ k) :
    ¬ (k * span ≤ j * span + i ∧ j * span + i < k * span + span) := by
  intro ⟨hlow, hhigh⟩
  obtain ⟨d, hd⟩ := Nat.exists_eq_add_of_le hlow
  have heq : j * span + i = k * span + d := hd
  exact hne (mul_add_inj hi (by omega) heq).1

/-- The bytes of a slice decide it. -/
theorem getSlice_congr {data : List Byte}
    (h : ∀ i < m.span, data[k * m.span + i]? = m.data[k * m.span + i]?) :
    ({ m with data := data } : MatrixVal).getSlice k = m.getSlice k := by
  have hbytes : (data.drop (k * m.span)).take m.span = (m.data.drop (k * m.span)).take m.span := by
    refine List.ext_getElem? fun i => ?_
    simp only [List.getElem?_take, List.getElem?_drop]
    split
    case isTrue hi => exact h i hi
    case isFalse => rfl
  unfold getSlice
  exact congrArg (fun bytes => if m.count ≤ k then _ else Except.ok bytes) hbytes

theorem sameShape_withData {data : List Byte} (h : data.length = m.data.length) : SameShape { m with data := data } m :=
  ⟨rfl, rfl, rfl, h⟩

/-- A slice overwritten whole is read back, and the others are what they were (R35). -/
theorem setSlice_getSlice (hm : m.valid = true) (hk : k < m.count) (hlength : values.length = m.span) :
    ∃ m', m.setSlice k values = .ok m' ∧ m'.valid = true ∧ m'.getSlice k = .ok values ∧
      ∀ j < m.count, j ≠ k → m'.getSlice j = m.getSlice j := by
  have hend : k * m.span + values.length ≤ m.data.length := hlength ▸ slice_end_le hm hk
  have hbytes := getElem?_splice hend
  have hdata : (m.data.take (k * m.span) ++ values ++ m.data.drop (k * m.span + values.length)).length =
      m.data.length := by
    simp only [List.length_append, List.length_take, List.length_drop]
    omega
  have hvalid := (sameShape_withData hdata).valid hm
  refine ⟨_, setSlice_inside hk hlength, hvalid, getSlice_eq_of_getElem? hvalid hk hlength fun i h => ?_,
    fun j _ hne => getSlice_congr fun i hi => ?_⟩
  · rw [← List.getElem?_eq_getElem h]
    refine (hbytes _).trans ((if_pos ⟨Nat.le_add_right _ _, Nat.add_lt_add_left h _⟩).trans ?_)
    exact congrArg (values[·]?) (Nat.add_sub_cancel_left _ _)
  · exact (hbytes _).trans (if_neg (by rw [hlength]; exact slice_disjoint hi hne))

end MatrixVal

/-- Settles O50: a slice is a row or a column by `getSlice_eq_getRow` and `getSlice_eq_getCol`, and is overwritten by
`setSlice_getSlice`. -/
theorem matrixSlicesFollowTheStorageOrder : Obligations.MatrixSlicesFollowTheStorageOrder := by
  refine fun m k values hm => ⟨MatrixVal.getSlice_eq_getRow hm, MatrixVal.getSlice_eq_getCol hm, fun h => ?_,
    MatrixVal.setSlice_getSlice hm⟩
  unfold MatrixVal.setSlice
  by_cases hk : m.count ≤ k
  · exact if_pos hk
  · rw [if_neg hk, if_pos (h.resolve_left hk)]

end Sys2Proof.Machine
end

section
/-! SUPPORT. The invariant (R18, R22 to R24): INIT writes a field of R17, TOMATRIX a square matrix of bits, and no other
command writes either. -/

namespace Sys2Proof.Machine

variable {s t : State} {m m' : MatrixVal} {a : Byte} {k : Nat}

/-! ### The matrix TOMATRIX builds -/

namespace MatrixVal

theorem sameShape_of_setCol {c : Nat} {values : List Byte} (h : m.setCol c values = .ok m') : SameShape m' m := by
  unfold setCol at h
  split at h
  · cases h
  · split at h
    · cases h
    · exact sameShape_of_setColFrom h

theorem sameShape_of_setColumns {cols : List (List Byte)} (h : m.setColumns k cols = .ok m') : SameShape m' m := by
  induction cols generalizing m k with
  | nil =>
    cases h
    exact ⟨rfl, rfl, rfl, rfl⟩
  | cons col cols ih =>
    unfold setColumns at h
    split at h
    case h_1 m₁ hset => exact (ih h).trans (sameShape_of_setCol hset)
    case h_2 => cases h

end MatrixVal

/-- A square row-major matrix of n rows whose bytes are 0 or 1 (R22, R23, R24). -/
structure BitMatrix (n : Nat) (m : MatrixVal) : Prop where
  valid : m.valid = true
  rows : m.rows = n
  cols : m.cols = n
  order : m.order = .rowMajor
  bit : ∀ v ∈ m.data, v.toNat ≤ 1

theorem BitMatrix.length_data {n : Nat} (h : BitMatrix n m) : m.data.length = n * n := by
  rw [MatrixVal.length_data_of_valid h.valid, h.rows, h.cols]

theorem valid_of_matrixOfColumns {n : Nat} {cols : List Nat} (hn : 1 ≤ n) (h : matrixOfColumns n cols = .ok m) :
    m.valid = true := by
  obtain ⟨m₀, hinit, hvalid, -⟩ := MatrixVal.init_spec .rowMajor hn hn
  rw [matrixOfColumns, hinit] at h
  exact (MatrixVal.sameShape_of_setColumns h).valid hvalid

/-- Every byte of the matrix belongs to a coordinate, where it is a bit of a product (R110). -/
theorem matrixOfColumns_bitMatrix {n : Nat} {cols : List Nat} (hn : 1 ≤ n) (hlength : cols.length = n) :
    ∃ m, matrixOfColumns n cols = .ok m ∧ BitMatrix n m := by
  obtain ⟨m, hm, hrows, hcols, horder, hget⟩ := matrixOfColumns_spec hn hlength
  have hvalid := valid_of_matrixOfColumns hn hm
  refine ⟨m, hm, hvalid, hrows, hcols, horder, fun v hv => ?_⟩
  obtain ⟨k, hk, rfl⟩ := List.getElem_of_mem hv
  obtain ⟨r, c, hr, hc, hidx⟩ := exists_matIdx_eq m.order (MatrixVal.length_data_of_valid hvalid ▸ hk)
  have hbyte : m.get r c = .ok m.data[k] :=
    MatrixVal.get_ok_iff.mpr ⟨hr, hc, hidx ▸ List.getElem?_eq_getElem hk⟩
  rw [hget c _ r (List.getElem?_eq_getElem (by omega)) (by omega)] at hbyte
  rw [← Except.ok.inj hbyte, BitVec.toNat_ofNat, bitAt]
  omega

/-- TOMATRIX ends with an error on the state before it, or with `OK 0` after writing a matrix of bits (R110). -/
theorem exec_toMatrix_next (h : exec (.toMatrix a) s = .next t) :
    (∃ e, t = deliver (rspWord (errCode e) 0) s) ∨ ∃ m, BitMatrix s.exp.toNat m ∧ t = deliver 0 (writeMatrix m s) := by
  cases hc : s.cfgv with
  | false =>
    cases h.symm.trans (exec_toMatrix_of_not_cfgv hc a)
    exact .inl ⟨.notConstructed, rfl⟩
  | true =>
    cases hcols : matrixColumns s.field a.toNat with
    | error e =>
      cases h.symm.trans (exec_toMatrix_of_error hc hcols)
      exact .inl ⟨e, rfl⟩
    | ok cols =>
      rcases Nat.eq_zero_or_pos s.exp.toNat with h0 | hpos
      · exact nomatch h.symm.trans (exec_toMatrix_of_exp_zero hc (BitVec.eq_of_toNat_eq h0) a)
      · obtain ⟨m, hm, hbits⟩ := matrixOfColumns_bitMatrix hpos (by simpa using length_of_mapM_ok hcols)
        rw [exec_toMatrix_of_columns hc hcols, hm] at h
        cases h
        exact .inr ⟨m, hbits, rfl⟩

/-- A buffer filled from index 0 holds a value at the indices of its bytes and at no others. -/
theorem read?_fill_eq_none_iff (vs : List Byte) (x : Nat) :
    Memory.read? (Memory.writeRun [] 0 vs) x = none ↔ vs.length ≤ x := by
  rw [Memory.read?_writeRun, Nat.zero_add]
  split
  case isTrue h => rw [List.getElem?_eq_none_iff, Nat.sub_zero]
  case isFalse h => exact iff_of_true rfl (by omega)

/-- Settles O42: after `OK 0` the buffer is filled anew, and every other end of TOMATRIX is an error. -/
theorem toMatrixTouchesOnlyTheMatrix : Obligations.ToMatrixTouchesOnlyTheMatrix := by
  intro s t a r h hr
  rcases exec_toMatrix_next h with ⟨e, rfl⟩ | ⟨m, hbits, rfl⟩
  · have hword := eq_of_responds_deliver rfl hr
    exact ⟨rfl, rfl, rfl, rfl, rfl, fun h0 => absurd (hword.trans h0) (rspWord_errCode_ne_zero e), fun _ _ => rfl⟩
  · have hword := eq_of_responds_deliver (writeMatrix_rsps s m) hr
    refine ⟨rfl, rfl, rfl, rfl, rfl, fun _ x => ?_, fun h0 => absurd hword.symm h0⟩
    rw [deliver_mat, writeMatrix_mat, read?_fill_eq_none_iff, hbits.length_data]

/-! ### INIT leaves the matrix alone -/

theorem answers_mget_iff {r c v : Byte} : Answers (.mget r c) s v ↔ mgetRead s r.toNat c.toNat = .ok v.toNat := by
  rw [Answers, exec_mget_eq_answer]
  refine answer_eq_answered_iff (fun n hn => ?_) v
  unfold mgetRead at hn
  cases hidx : mgetIndex s r.toNat c.toNat with
  | error e =>
    rw [hidx] at hn
    cases hn
  | ok addr =>
    rw [hidx] at hn
    cases hn
    exact BitVec.isLt _

/-- INIT completes and leaves the matrix registers, the buffer and the command port as they were (R22, R70). -/
theorem exec_init_sameMatrix (n : Byte) (s : State) :
    ∃ t, exec (.init n) s = .next t ∧ SameMatrix t s ∧ t.host = s.host := by
  by_cases hn : 1 ≤ n.toNat ∧ n.toNat ≤ 7
  · exact ⟨_, exec_init_inside hn.1 hn.2 s, ⟨rfl, rfl, rfl, rfl, rfl⟩, rfl⟩
  · exact ⟨_, exec_init_outside (by omega) s, ⟨rfl, rfl, rfl, rfl, rfl⟩, rfl⟩

/-- Settles O41: MGET reads the matrix alone, which INIT leaves as it was. -/
theorem matrixOutlivesInit : Obligations.MatrixOutlivesInit := by
  intro s n
  obtain ⟨t, hexec, hmatrix, hhost⟩ := exec_init_sameMatrix n s
  refine ⟨t, hexec, hmatrix.matv, hmatrix.mrows, hmatrix.mcols, hmatrix.morder, hhost, fun x => by rw [hmatrix.mat],
    fun r c v h => ?_⟩
  rw [answers_mget_iff, hmatrix.mgetRead_congr]
  exact answers_mget_iff.mp h

/-! ### Every step keeps the invariant -/

theorem configOk_writeField {n : Nat} (h1 : 1 ≤ n) (h7 : n ≤ 7) (s : State) : ConfigOk (writeField (fieldOf n) s) := by
  have hrow : ∀ n < 8, 1 ≤ n → (BitVec.ofNat 3 n).toNat = n ∧ (BitVec.ofNat 8 (1 <<< n)).toNat = 1 <<< n ∧
      (BitVec.ofNat 8 (divTab n)).toNat = divTab n := by decide
  obtain ⟨hexp, horder, hdivisor⟩ := hrow n (by omega) h1
  intro _
  simp only [writeField_exp, writeField_order, writeField_divisor, fieldOf, hexp, horder, hdivisor, and_true]
  exact ⟨h1, h7⟩

/-- A matrix of bits whose shape fits the registers leaves the buffer as the invariant asks (R22 to R24). -/
theorem matrixOk_writeMatrix (h : BitMatrix s.exp.toNat m) : MatrixOk (writeMatrix m s) := by
  rw [writeMatrix_eq_of_square h.rows h.cols h.order, Memory.fill_eq, h.length_data]
  refine fun _ => ⟨?_, rfl, rfl, ?_, fun cell hcell => h.bit _ (List.of_mem_zip hcell).2⟩
  · have hvalid := h.valid
    simp only [MatrixVal.valid, Bool.and_eq_true, decide_eq_true_eq] at hvalid
    exact h.rows ▸ hvalid.1.1
  · exact List.map_fst_zip (by simp [h.length_data])

theorem wf_writeMatrix (h : BitMatrix s.exp.toNat m) : Memory.wf (writeMatrix m s).mat = true := by
  have hexp := s.exp.isLt
  have hsmall : s.exp.toNat * s.exp.toNat ≤ 7 * 7 := Nat.mul_le_mul (by omega) (by omega)
  exact Memory.wf_writeRun _ _ _ (by rw [h.length_data, Nat.zero_add]; exact hsmall) Memory.wf_reset

theorem exec_keeps_coreInv {i : Instr} (hinv : CoreInv s) (h : exec i s = .next t) : CoreInv t := by
  obtain ⟨hconfig, hmatrix, hwf⟩ := hinv
  have hanswer {x : Except Err Nat} (hx : exec i s = answer s x) : CoreInv t := by
    obtain ⟨r, hr⟩ := answer_cases s x
    cases h.symm.trans (hx.trans hr)
    exact ⟨hconfig, hmatrix, hwf⟩
  cases i with
  | init n =>
    by_cases hn : 1 ≤ n.toNat ∧ n.toNat ≤ 7
    · cases h.symm.trans (exec_init_inside hn.1 hn.2 s)
      exact ⟨configOk_writeField hn.1 hn.2 s, hmatrix, hwf⟩
    · cases h.symm.trans (exec_init_outside (n := n) (by omega) s)
      exact ⟨hconfig, hmatrix, hwf⟩
  | validate | add | neg | sub | mul | div | invert | rdcfg => exact hanswer rfl
  | mget r c => exact hanswer (exec_mget_eq_answer r c s)
  | toMatrix a =>
    rcases exec_toMatrix_next h with ⟨e, rfl⟩ | ⟨m, hbits, rfl⟩
    · exact ⟨hconfig, hmatrix, hwf⟩
    · exact ⟨hconfig, matrixOk_writeMatrix hbits, wf_writeMatrix hbits⟩

theorem runWord_keeps_coreInv {w : CmdWord} (hinv : CoreInv s) (h : runWord w s = .next t) : CoreInv t := by
  cases hw : decode w with
  | ok i => exact exec_keeps_coreInv hinv (runWord_ok s hw ▸ h)
  | error e =>
    cases h.symm.trans (runWord_error s hw)
    exact hinv

/-- Settles O37: a command keeps the invariant by `exec_keeps_coreInv`, and the reset state meets it. -/
theorem stepKeepsTheInvariant : Obligations.StepKeepsTheInvariant := by
  intro s t hinv h
  match hs : s.host with
  | [] =>
    simp only [step, hs] at h
    cases h
    exact hinv
  | .command w :: rest => exact runWord_keeps_coreInv (s := { s with host := rest }) hinv (step_command hs ▸ h)
  | .reset _ :: rest =>
    cases h.symm.trans (step_reset hs)
    exact resetMeetsTheInvariant

end Sys2Proof.Machine
end

section
/-! SUPPORT. The buffer as one Matrix value (R38), and the host's sequences of MGET that read it (R60). -/

namespace Sys2Proof.Machine

variable {s : State} {k : Byte}

/-! ### The bytes of the buffer -/

theorem Memory.mem_of_read? {m : Memory} {x : Nat} {v : Byte} (h : m.read? x = some v) : (x, v) ∈ m := by
  induction m with
  | nil => cases h
  | cons cell m ih =>
    unfold Memory.read? at h
    split at h
    case isTrue hx =>
      cases h
      exact hx ▸ List.mem_cons_self
    case isFalse => exact List.mem_cons_of_mem _ (ih h)

/-- A listed index holds a value. -/
theorem Memory.exists_read? {m : Memory} {x : Nat} (h : x ∈ m.map Prod.fst) : ∃ v, m.read? x = some v := by
  induction m with
  | nil => cases h
  | cons cell m ih =>
    unfold Memory.read?
    split
    case isTrue => exact ⟨_, rfl⟩
    case isFalse hx => exact ih ((List.mem_cons.mp h).resolve_left hx)

/-- Under the invariant every byte of the matrix holds a bit (R24). -/
theorem exists_bit_read? (hinv : CoreInv s) (hm : s.matv = true) {x : Nat} (hx : x < s.mrows.toNat * s.mcols.toNat) :
    ∃ v, s.mat.read? x = some v ∧ v.toNat ≤ 1 := by
  obtain ⟨-, -, -, hlisted, hbit⟩ := hinv.2.1 hm
  obtain ⟨v, hv⟩ := Memory.exists_read? (hlisted ▸ List.mem_range.mpr hx)
  exact ⟨v, hv, hbit _ (Memory.mem_of_read? hv)⟩

theorem bufferMatrix_valid (hinv : CoreInv s) (hm : s.matv = true) : (bufferMatrix s).valid = true := by
  obtain ⟨h1, hsquare, -⟩ := hinv.2.1 hm
  have hcols : 1 ≤ s.mcols.toNat := hsquare ▸ h1
  simp [MatrixVal.valid, bufferMatrix, h1, hcols]

/-- `get` on the buffer reads the element at the coordinates (R38). -/
theorem bufferMatrix_get {r c : Nat} (hr : r < s.mrows.toNat) (hc : c < s.mcols.toNat) :
    (bufferMatrix s).get r c = .ok (matrixEntry s r c) := by
  have hlt := matIdx_lt s.morder hr hc
  refine MatrixVal.get_ok_iff.mpr ⟨hr, hc, ?_⟩
  simp only [bufferMatrix, List.getElem?_map, List.getElem?_range hlt]
  rfl

/-- Settles O51: inside the shape `get`, MGET and the byte at the row-major index are `matrixEntry`. -/
theorem bufferIsOneMatrix : Obligations.BufferIsOneMatrix := by
  intro s hinv hm
  obtain ⟨-, -, horder, -⟩ := hinv.2.1 hm
  refine ⟨bufferMatrix_valid hinv hm, horder, fun r c hr hc => ?_⟩
  obtain ⟨v, hv, hbit⟩ := exists_bit_read? hinv hm (matIdx_lt .rowMajor hr hc)
  have hentry : matrixEntry s r.toNat c.toNat = v := by
    rw [matrixEntry, horder, Memory.read, hv, Option.getD_some]
  exact ⟨v, hentry ▸ bufferMatrix_get hr hc, hentry ▸ answers_mget hm hr hc, hbit, hv⟩

/-! ### Running a sequence -/

/-- `s` with the bytes `vs` received one after another, each with status 0 (R54). -/
def received (s : State) (vs : List Byte) : State :=
  { s with rsps := s.rsps ++ vs.map fun v => BitVec.ofNat 16 v.toNat }

theorem rspStatus_of_byte (v : Byte) : rspStatus (BitVec.ofNat 16 (0 * 256 + v.toNat)) = okCode := by
  have hv := v.isLt
  apply BitVec.eq_of_toNat_eq
  have hcode : okCode.toNat = 0 := rfl
  simp only [rspStatus, hcode, BitVec.toNat_ofNat]
  omega

/-- A command that is answered with `OK` lets the sequence go on (R60). -/
theorem runMacro_cons_of_answers {i : Instr} {v : Byte} (h : Answers i s v) (rest : List Instr) :
    runMacro (i :: rest) s = runMacro rest (received s [v]) := by
  have hlast : (answered s 0 v.toNat).rsps.getLast?.map rspStatus = some okCode := by
    simp only [answered, List.getLast?_concat, Option.map_some, rspStatus_of_byte]
  rw [runMacro, h]
  simp only [hlast, if_true]
  simp [answered, received]

/-- A command that fails ends the sequence (R60). -/
theorem runMacro_cons_of_fails {i : Instr} (h : Fails i s 4) (rest : List Instr) :
    runMacro (i :: rest) s = .next (answered s 4 0) := by
  have hlast : (answered s 4 0).rsps.getLast?.map rspStatus = some 4 := by
    simp only [answered, List.getLast?_concat, Option.map_some]
    rfl
  rw [runMacro, h]
  simp only [hlast]
  rfl

/-- Commands that are answered whatever responses came before are all run (R60). -/
theorem runMacro_map {cmd : Nat → Instr} {v : Nat → Byte} {l : List Nat}
    (h : ∀ x ∈ l, ∀ earlier, Answers (cmd x) { s with rsps := earlier } (v x)) :
    runMacro (l.map cmd) s = .next (received s (l.map v)) := by
  induction l generalizing s with
  | nil => simp [runMacro, received]
  | cons x l ih =>
    obtain ⟨hx, hl⟩ := List.forall_mem_cons.mp h
    rw [List.map_cons, runMacro_cons_of_answers (hx s.rsps), ih (s := received s [v x]) hl]
    simp [received]

/-! ### Rows and columns -/

/-- The coordinates of a matrix are bytes: a shape register has 3 bits. -/
theorem coordinate_toNat {n : BitVec 3} {x : Nat} (hx : x < n.toNat) : (BitVec.ofNat 8 x).toNat = x := by
  have := n.isLt
  rw [BitVec.toNat_ofNat]
  omega

theorem runMacro_mgetRow (hm : s.matv = true) (hk : k.toNat < s.mrows.toNat) :
    ∃ vs, (bufferMatrix s).getRow k.toNat = .ok vs ∧
      runMacro (mgetRowMacro s.mcols.toNat k) s = .next (received s vs) := by
  refine ⟨(List.range s.mcols.toNat).map (matrixEntry s k.toNat), ?_, runMacro_map fun c hc earlier => ?_⟩
  · exact (if_neg (Nat.not_le_of_lt hk)).trans
      (mapM_eq_ok_map fun c hc => bufferMatrix_get hk (List.mem_range.mp hc))
  · have hbyte := coordinate_toNat (List.mem_range.mp hc)
    have h := answers_mget (s := { s with rsps := earlier }) (c := BitVec.ofNat 8 c) hm hk
      (hbyte.trans_lt (List.mem_range.mp hc))
    rwa [hbyte] at h

theorem runMacro_mgetCol (hm : s.matv = true) (hk : k.toNat < s.mcols.toNat) :
    ∃ vs, (bufferMatrix s).getCol k.toNat = .ok vs ∧
      runMacro (mgetColMacro s.mrows.toNat k) s = .next (received s vs) := by
  refine ⟨(List.range s.mrows.toNat).map fun r => matrixEntry s r k.toNat, ?_, runMacro_map fun r hr earlier => ?_⟩
  · exact (if_neg (Nat.not_le_of_lt hk)).trans
      (mapM_eq_ok_map fun r hr => bufferMatrix_get (List.mem_range.mp hr) hk)
  · have hbyte := coordinate_toNat (List.mem_range.mp hr)
    have h := answers_mget (s := { s with rsps := earlier }) (r := BitVec.ofNat 8 r) hm
      (hbyte.trans_lt (List.mem_range.mp hr)) hk
    rwa [hbyte] at h

/-- A sequence of at least one command stops at the first if that fails. -/
theorem runMacro_range_of_fails {n : Nat} {cmd : Nat → Instr} (hn : 1 ≤ n) (h : Fails (cmd 0) s 4) :
    runMacro ((List.range n).map cmd) s = .next (answered s 4 0) := by
  obtain ⟨n, rfl⟩ := Nat.exists_eq_add_of_le' hn
  rw [List.range_succ_eq_map, List.map_cons]
  exact runMacro_cons_of_fails h _

/-- Settles O52: inside the matrix by `runMacro_mgetRow` and `runMacro_mgetCol`, a slice of the row-major buffer being a
row; outside it the first command fails. -/
theorem hostMacrosReadRowsAndColumns : Obligations.HostMacrosReadRowsAndColumns := by
  intro s k hinv hm
  obtain ⟨h1, hsquare, horder, -⟩ := hinv.2.1 hm
  refine ⟨fun hk => ?_, fun hk => ?_⟩
  · have hrow := runMacro_mgetRow hm hk
    rw [hsquare] at hrow
    refine ⟨hrow, runMacro_mgetCol hm (hsquare ▸ hk), ?_⟩
    rw [MatrixVal.getSlice_eq_getRow (bufferMatrix_valid hinv hm) horder]
    exact hrow
  · have hrow := runMacro_range_of_fails (cmd := fun c => .mget k (BitVec.ofNat 8 c)) h1
      (fails_mget_outside hm (.inl hk))
    have hcol := runMacro_range_of_fails (cmd := fun r => .mget (BitVec.ofNat 8 r) k) h1
      (fails_mget_outside hm (.inr (hsquare ▸ hk)))
    simp only [List.forall_mem_cons]
    exact ⟨hrow, hcol, hrow, nofun⟩

end Sys2Proof.Machine
end

section
/-! SUPPORT. The laws of the field (R83, R92 to R95, R100 to R103): what MUL answers is the product of residues modulo
the divisor, so the laws are those of that field. -/

namespace Sys2Proof.Machine

open Polynomial

variable {s : State} {F : FieldCfg} {a b c p v : Byte} {x y n : Nat}

/-! ### The helper functions (R92, R93) -/

/-- Numbers with the same bits are equal. -/
theorem bitPoly_injective : Function.Injective bitPoly := by
  intro x y h
  have hsum : bitPoly (x ^^^ y) = 0 := by
    rw [bitPoly_xor, h, ← bitPoly_xor, Nat.xor_self, bitPoly_zero]
  exact Nat.xor_eq_zero_iff.mp (bitPoly_eq_zero_iff.mp hsum)

theorem clmul_comm (hx : x < 256) (hy : y < 256) : clmul x y = clmul y x :=
  bitPoly_injective (by rw [bitPoly_clmul x hy, bitPoly_clmul y hx, mul_comm])

theorem degree_bitPoly_le (hx : x < 2 ^ (n + 1)) : (bitPoly x).degree ≤ n :=
  Order.lt_succ_iff.mp (degree_bitPoly_lt_iff.mpr hx)

/-- The degree of a product is at most the sum of the degrees (R92). -/
theorem clmul_lt (hn : n ≤ 7) (hx : x < 2 ^ (n + 1)) (hy : y < 2 ^ (n + 1)) : clmul x y < 2 ^ (2 * n + 1) := by
  have hsmall : 2 ^ (n + 1) ≤ 2 ^ 8 := Nat.pow_le_pow_right (by decide) (by omega)
  rw [← degree_bitPoly_lt_iff, bitPoly_clmul x (hy.trans_le hsmall)]
  calc (bitPoly x * bitPoly y).degree
    _ ≤ (bitPoly x).degree + (bitPoly y).degree := degree_mul_le _ _
    _ ≤ n + n := add_le_add (degree_bitPoly_le hx) (degree_bitPoly_le hy)
    _ < (2 * n + 1 : ℕ) := by
      rw [← Nat.cast_add, Nat.cast_lt]
      omega

/-- Settles O54: a carry-less product is a product of polynomials over GF(2). -/
theorem carrylessProductFitsTheAccumulator : Obligations.CarrylessProductFitsTheAccumulator := by
  refine ⟨fun x hx y hy => ⟨clmul_comm hx hy, ?_⟩, fun n h1 h7 x hx y hy => ?_⟩
  · exact (clmul_lt (n := 7) le_rfl hx hy).trans (by decide)
  · obtain ⟨n, rfl⟩ := Nat.exists_eq_add_of_le' h1
    exact clmul_lt (by omega) hx hy

/-- One step of the loop more or less does not change the result: both are the element of the same residue (R93). -/
theorem reduce_reduceStep (hF : F.Proper) (acc : Nat) : reduce F acc = reduce F (reduceStep F acc) := by
  refine eq_of_residue_eq hF (reduce_lt hF _) (reduce_lt hF _) ?_
  rw [residue_reduce, residue_reduce, residue_reduceStep]

/-- Settles O55 in every proper field, of which R17 gives seven. -/
theorem reductionEndsInTheField : Obligations.ReductionEndsInTheField := by
  intro n h1 h7 acc
  have hF := fieldOf_proper h1 h7
  rw [← show (fieldOf n).order = 2 ^ n from hF.order_eq]
  exact ⟨fun h => ⟨countBits_reduceStep_lt hF h, reduce_reduceStep hF acc⟩, fun h => reduceLoop_of_lt h _,
    reduce_lt hF acc⟩

/-- Settles O56: the integer product is the reduced product, which is what `fmul` answers. -/
theorem productInTheTwoElementField : Obligations.ProductInTheTwoElementField := by
  intro x hx y hy
  have hprod := mul_eq_reduce_clmul x hx y hy
  exact ⟨hprod ▸ fmul_fieldOf le_rfl (by decide) hx hy, hprod.symm⟩

/-! ### MUL and residues -/

theorem field_proper (hs : Configured s) : s.field.Proper := by
  obtain ⟨hF, h1, h7⟩ := field_eq_fieldOf hs
  exact hF ▸ fieldOf_proper h1 h7

theorem irreducible_divisor (hs : Configured s) : Irreducible (bitPoly s.field.divisor) := by
  obtain ⟨hF, h1, h7⟩ := field_eq_fieldOf hs
  exact hF ▸ irreducible_bitPoly_divTab h1 h7

theorem element_zero (hs : Configured s) : Element s 0 := order_pos_of_configured hs

theorem element_one (hs : Configured s) : Element s 1 := by
  obtain ⟨h1, -, ho, -⟩ := hs.2 hs.1
  rw [Nat.one_shiftLeft] at ho
  rw [Element, ho]
  exact Nat.one_lt_two_pow (Nat.one_le_iff_ne_zero.mp h1)

/-- An element is determined by its residue. -/
theorem residue_inj (hs : Configured s) (ha : Element s a) (hb : Element s b) :
    residue s.field a.toNat = residue s.field b.toNat ↔ a = b :=
  ⟨fun h => BitVec.eq_of_toNat_eq (eq_of_residue_eq (field_proper hs) ha hb h), fun h => h ▸ rfl⟩

/-- Two elements have a product among the elements, which MUL answers (R90, R94). -/
theorem exists_product (hs : Configured s) (ha : Element s a) (hb : Element s b) :
    ∃ p, Element s p ∧ Answers (.mul a b) s p ∧
      residue s.field p.toNat = residue s.field a.toNat * residue s.field b.toNat := by
  obtain ⟨p, hmul, hp⟩ := exists_answers_mul hs ha hb
  refine ⟨p, ?_, hmul, by rw [hp, residue_reduce, residue_clmul _ _ b.isLt]⟩
  rw [Element, hp]
  exact reduce_lt (field_proper hs) _

/-- MUL answers one product. -/
theorem answers_mul_unique (hc : s.cfgv = true) {q : Byte} (hp : Answers (.mul a b) s p) (hq : Answers (.mul a b) s q) :
    p = q := by
  rw [answers_mul_iff hc] at hp hq
  exact BitVec.eq_of_toNat_eq (Except.ok.inj (hp.symm.trans hq))

/-- Among the elements, what MUL answers is the one whose residue is the product (R92, R93). -/
theorem answers_mul_iff_residue (hs : Configured s) (ha : Element s a) (hb : Element s b) (hp : Element s p) :
    Answers (.mul a b) s p ↔ residue s.field p.toNat = residue s.field a.toNat * residue s.field b.toNat := by
  obtain ⟨q, hq, hmul, hres⟩ := exists_product hs ha hb
  rw [← hres, residue_inj hs hp hq]
  exact ⟨fun h => answers_mul_unique hs.1 h hmul, fun h => h ▸ hmul⟩

theorem fails_mul_outside (hc : s.cfgv = true) (h : ¬ (Element s a ∧ Element s b)) : Fails (.mul a b) s 2 := by
  by_cases ha : Element s a
  · have hb : s.field.order ≤ b.toNat := Nat.le_of_not_lt fun hb => h ⟨ha, hb⟩
    rw [Fails, exec_mul_of_cfgv hc, fmul_outside_right ha hb]
    exact answer_error_eq s .invalidNumber
  · exact fails_mul_outside_left hc ha b

/-- Settles O19: the check of `CFGV`, the two checks of the operands, then `exists_answers_mul`. -/
theorem mulAnswersTheReducedProduct : Obligations.MulAnswersTheReducedProduct :=
  fun _ a b => ⟨decode_twoOperandWord (i := .mul a b) (by simp [Instr.opcode]), fun hc => exec_mul_of_not_cfgv hc a b,
    exists_answers_mul, fails_mul_outside⟩

/-! ### MUL and polynomials -/

/-- As many terms as bits are enough. -/
theorem bitSum_eq_bitPoly (hx : x < 2 ^ n) :
    ∑ i ∈ Finset.range n, (if x.testBit i then (X ^ i : (ZMod 2)[X]) else 0) = bitPoly x := by
  ext k
  rw [coeff_bitSum hx, coeff_bitPoly]

theorem monic_divisor (hs : Configured s) : (bitPoly s.field.divisor).Monic :=
  monic_bitPoly ((order_pos_of_configured hs).trans_le (field_proper hs).order_le_divisor).ne'

/-- The polynomial of an element has a lower degree than the divisor's. -/
theorem degree_bitPoly_lt_divisor (hs : Configured s) (hp : Element s p) :
    (bitPoly p.toNat).degree < (bitPoly s.field.divisor).degree := by
  obtain ⟨ho, hd, -⟩ := field_proper hs
  rw [ho] at hd
  rw [Element, ← field_order, ho] at hp
  exact (degree_bitPoly_lt_iff.mpr hp).trans_le (not_lt.mp (degree_bitPoly_lt_iff.not.mpr (Nat.not_lt.mpr hd)))

/-- The polynomial of a product is the remainder on division by the divisor (R92, R93). -/
theorem bitPoly_product (hs : Configured s) (ha : Element s a) (hb : Element s b) (hp : Element s p)
    (hmul : Answers (.mul a b) s p) :
    bitPoly p.toNat = bitPoly a.toNat * bitPoly b.toNat %ₘ bitPoly s.field.divisor := by
  have hmonic := monic_divisor hs
  have hres := (answers_mul_iff_residue hs ha hb hp).mp hmul
  rw [residue, residue, residue, ← map_mul, AdjoinRoot.mk_eq_mk] at hres
  rw [← (modByMonic_eq_self_iff hmonic).mpr (degree_bitPoly_lt_divisor hs hp)]
  exact modByMonic_eq_of_dvd_sub hmonic hres

/-- Settles O20: a number of at most sixteen bits is its `bitPoly`, and `bitPoly_product` is the remainder. -/
theorem mulIsPolynomialMultiplication : Obligations.MulIsPolynomialMultiplication := by
  intro s a b hs ha hb
  have hpoly (w : Byte) := bitSum_eq_bitPoly (w.isLt.trans (by decide) : w.toNat < 2 ^ 16)
  obtain ⟨p, hp, hmul, -⟩ := exists_product hs ha hb
  refine ⟨p, hmul, ?_⟩
  simp only [hpoly]
  exact bitPoly_product hs ha hb hp hmul

/-! ### Inverses -/

/-- The inverse that `finv` finds, as a residue (R100, R103). -/
theorem exists_inverse (hs : Configured s) (ha : Element s a) (ha0 : a.toNat ≠ 0) :
    ∃ v : Byte, Element s v ∧ v.toNat ≠ 0 ∧ finv s.field a.toNat = .ok v.toNat ∧
      residue s.field a.toNat * residue s.field v.toNat = 1 := by
  obtain ⟨v, hv, hfinv, hone, -⟩ := finv_inside hs ha ha0
  obtain ⟨v, rfl⟩ := exists_byte_of_lt_order hv
  have hprod : residue s.field a.toNat * residue s.field v.toNat = 1 := by
    rw [← (answers_mul_iff_residue hs ha hv (element_one hs)).mp ((answers_mul_iff hs.1).mpr hone)]
    exact residue_one _
  refine ⟨v, hv, fun h0 => ?_, hfinv, hprod⟩
  rw [h0, residue_zero, mul_zero, ← residue_zero, ← residue_one] at hprod
  exact absurd (eq_of_residue_eq (field_proper hs) (element_zero hs) (element_one hs) hprod) (by decide)

/-- Settles O22: inverses in a commutative ring are unique. -/
theorem everyNonzeroElementHasOneInverse : Obligations.EveryNonzeroElementHasOneInverse := by
  intro s a hs ha ha0
  obtain ⟨v, hv, hv0, hfinv, hprod⟩ := exists_inverse hs ha ha0
  obtain ⟨u, hu, -, hfinv', hprod'⟩ := exists_inverse hs hv hv0
  have hua : u = a := (residue_inj hs hu ha).mp (left_inv_eq_right_inv hprod hprod').symm
  refine ⟨v, answers_invert hs.1 hfinv, answers_invert hs.1 (hua ▸ hfinv'), fun w hw => ?_⟩
  rw [answers_mul_iff_residue hs ha hw (element_one hs)]
  constructor
  · intro hone
    have hprodw : residue s.field a.toNat * residue s.field w.toNat = 1 := hone.symm.trans (residue_one _)
    rw [mul_comm] at hprodw
    exact (residue_inj hs hw hv).mp (left_inv_eq_right_inv hprodw hprod)
  · rintro rfl
    exact (residue_one _).trans hprod.symm

/-- Settles O24: the inverse of `b` and `b` cancel. -/
theorem divThenMulRestores : Obligations.DivThenMulRestores := by
  intro s a b hs ha hb hb0
  obtain ⟨v, hv, -, hfinv, hprod⟩ := exists_inverse hs hb hb0
  obtain ⟨q, hq, hmul, hres⟩ := exists_product hs ha hv
  refine ⟨q, (exec_div_eq_exec_mul hs.1 a hfinv).trans hmul, (answers_mul_iff_residue hs hq hb ha).mpr ?_⟩
  rw [hres, mul_assoc, mul_comm (residue _ v.toNat), hprod, mul_one]

/-! ### The laws -/

/-- Settles O28: the laws of exclusive-or, through the answers of ADD, SUB and NEG. -/
theorem additionLaws : Obligations.AdditionLaws := by
  intro s hs a b c ha hb hc
  have hab := element_xor hs ha hb
  have hbc := element_xor hs hb hc
  obtain ⟨-, -, hneg, -⟩ := negIsTheIdentity s a
  refine ⟨a ^^^ b, b ^^^ c, a ^^^ b ^^^ c, hab, answers_add hs ha hb, ?_, ?_, answers_add hs hb hc,
    answers_add hs hab hc, ?_, ?_, ?_, ?_, hneg hs.1 ha⟩
  · exact BitVec.xor_comm b a ▸ answers_add hs hb ha
  · have h := answers_add hs ha hab
    rwa [← BitVec.xor_assoc, BitVec.xor_self, BitVec.zero_xor] at h
  · exact BitVec.xor_assoc a b c ▸ answers_add hs ha hbc
  · have h := answers_add hs ha (element_zero hs)
    rwa [BitVec.ofNat_eq_ofNat, BitVec.xor_zero] at h
  · have h := answers_add hs ha ha
    rwa [BitVec.xor_self] at h
  · exact (exec_sub_eq_exec_add a b s).trans (answers_add hs ha hb)

section

variable {d q u w : Byte}

theorem answers_mul_comm (hs : Configured s) (ha : Element s a) (hb : Element s b) (hp : Element s p)
    (h : Answers (.mul a b) s p) : Answers (.mul b a) s p := by
  rw [answers_mul_iff_residue hs ha hb hp] at h
  rw [answers_mul_iff_residue hs hb ha hp, h, mul_comm]

/-- `p` is `a * b`, `w` is `b * d`, and `u` is `p * d`, so `u` is `a * w`. -/
theorem answers_mul_assoc (hs : Configured s) (ha : Element s a) (hb : Element s b) (hd : Element s d)
    (hp : Element s p) (hw : Element s w) (hu : Element s u) (hab : Answers (.mul a b) s p)
    (hbd : Answers (.mul b d) s w) (hpd : Answers (.mul p d) s u) : Answers (.mul a w) s u := by
  rw [answers_mul_iff_residue hs ha hb hp] at hab
  rw [answers_mul_iff_residue hs hb hd hw] at hbd
  rw [answers_mul_iff_residue hs hp hd hu] at hpd
  rw [answers_mul_iff_residue hs ha hw hu, hpd, hab, hbd, mul_assoc]

theorem answers_mul_one (hs : Configured s) (ha : Element s a) : Answers (.mul a 1) s a := by
  have hone : residue s.field (1 : Byte).toNat = 1 := residue_one _
  rw [answers_mul_iff_residue hs ha (element_one hs) ha, hone, mul_one]

theorem answers_mul_zero (hs : Configured s) (ha : Element s a) : Answers (.mul a 0) s 0 := by
  have hzero : residue s.field (0 : Byte).toNat = 0 := residue_zero _
  rw [answers_mul_iff_residue hs ha (element_zero hs) (element_zero hs), hzero, mul_zero]

/-- MUL distributes over exclusive-or. -/
theorem answers_mul_xor (hs : Configured s) (ha : Element s a) (hb : Element s b) (hd : Element s d)
    (hp : Element s p) (hq : Element s q) (hab : Answers (.mul a b) s p) (had : Answers (.mul a d) s q) :
    Answers (.mul a (b ^^^ d)) s (p ^^^ q) := by
  rw [answers_mul_iff_residue hs ha hb hp] at hab
  rw [answers_mul_iff_residue hs ha hd hq] at had
  rw [answers_mul_iff_residue hs ha (element_xor hs hb hd) (element_xor hs hp hq), BitVec.toNat_xor, BitVec.toNat_xor,
    residue_xor, residue_xor, hab, had, mul_add]

/-- The divisor is irreducible, so a product of residues is 0 only if a factor is. -/
theorem eq_zero_of_answers_mul_zero (hs : Configured s) (ha : Element s a) (hb : Element s b)
    (h : Answers (.mul a b) s 0) : a = 0 ∨ b = 0 := by
  have : Fact (Irreducible (bitPoly s.field.divisor)) := ⟨irreducible_divisor hs⟩
  have hzero : residue s.field (0 : Byte).toNat = 0 := residue_zero _
  rw [answers_mul_iff_residue hs ha hb (element_zero hs), hzero, eq_comm, mul_eq_zero, ← hzero,
    residue_inj hs ha (element_zero hs), residue_inj hs hb (element_zero hs)] at h
  exact h

end

/-- Settles O29: each law is one of the residues, which form a field. -/
theorem multiplicationLaws : Obligations.MultiplicationLaws := by
  intro s hs a b c ha hb hc
  obtain ⟨ab, hab, hmulab, -⟩ := exists_product hs ha hb
  obtain ⟨ac, hac, hmulac, -⟩ := exists_product hs ha hc
  obtain ⟨bc, hbc, hmulbc, -⟩ := exists_product hs hb hc
  obtain ⟨abc, habc, hmulabc, -⟩ := exists_product hs hab hc
  exact ⟨ab, ac, bc, abc, hab, hmulab, answers_mul_comm hs ha hb hab hmulab, hmulac, hmulbc,
    answers_mul_assoc hs ha hb hc hab hbc habc hmulab hmulbc hmulabc, hmulabc, answers_mul_one hs ha,
    answers_mul_zero hs ha, answers_mul_xor hs ha hb hc hab hac hmulab hmulac,
    fun h0 => eq_zero_of_answers_mul_zero hs ha hb (h0 ▸ hmulab)⟩

/-! ### The inverse tables (R103) -/

/-- A state with the numbers of INIT n is configured. -/
theorem configured_of_field (hc : s.cfgv = true) (hF : s.field = fieldOf n) (h1 : 1 ≤ n) (h7 : n ≤ 7) :
    Configured s := by
  have hexp : s.exp.toNat = n := congrArg FieldCfg.exp hF
  have horder : s.order.toNat = 1 <<< n := congrArg FieldCfg.order hF
  have hdivisor : s.divisor.toNat = divTab n := congrArg FieldCfg.divisor hF
  exact ⟨hc, fun _ => by rw [hexp, horder, hdivisor]; exact ⟨h1, h7, rfl, rfl⟩⟩

/-- An element whose product with `a` is 1 is what INVERT answers. -/
theorem answers_invert_of_product_one (hs : Configured s) (ha : Element s a) (hv : Element s v)
    (hone : Answers (.mul a v) s 1) : Answers (.invert a) s v := by
  have ha0 : a.toNat ≠ 0 := fun h0 => by
    obtain rfl : a = 0 := BitVec.eq_of_toNat_eq h0
    have hzero := answers_mul_comm hs hv ha ha (answers_mul_zero hs hv)
    exact absurd (answers_mul_unique hs.1 hone hzero) (by decide)
  obtain ⟨w, hw, -, hunique⟩ := everyNonzeroElementHasOneInverse s a hs ha ha0
  exact (hunique v hv).mp hone ▸ hw

/-- Entry k of a table is an element whose product with k + 1 is 1. -/
theorem inverseTable_products :
    ∀ p ∈ ([(1, [1]), (2, [1, 3, 2]), (3, [1, 5, 6, 7, 2, 3, 4]),
      (4, [1, 9, 14, 13, 11, 7, 6, 15, 2, 12, 5, 10, 4, 3, 8]),
      (5, [1, 18, 28, 9, 23, 14, 12, 22, 4, 25, 16, 7, 15, 6, 13,
        11, 24, 2, 29, 30, 26, 8, 5, 17, 10, 21, 31, 3, 19, 20, 27])] : List (Nat × List Byte)),
      1 ≤ p.1 ∧ p.1 ≤ 7 ∧ ∀ k (h : k < p.2.length), k + 1 < (fieldOf p.1).order ∧ p.2[k].toNat < (fieldOf p.1).order ∧
        fmul (fieldOf p.1) (k + 1) p.2[k].toNat = .ok 1 := by decide

/-- Settles O30: the products of each table are 1, and inverses are unique. -/
theorem inverseTables : Obligations.InverseTables := by
  intro p hp s hc hF
  obtain ⟨h1, h7, htable⟩ := inverseTable_products p hp
  have hs := configured_of_field hc hF h1 h7
  refine ⟨fails_invert_zero hc rfl, fun k v hv => ?_⟩
  obtain ⟨hk, rfl⟩ := List.getElem?_eq_some_iff.mp hv
  obtain ⟨hlt, hvlt, hprod⟩ := htable k hk
  rw [← hF] at hlt hvlt hprod
  have hbyte : (BitVec.ofNat 8 (k + 1)).toNat = k + 1 := by
    rw [BitVec.toNat_ofNat]
    exact Nat.mod_eq_of_lt (hlt.trans s.order.isLt)
  have hone : Answers (.mul (BitVec.ofNat 8 (k + 1)) p.2[k]) s 1 :=
    (answers_mul_iff hc).mpr (hbyte.symm ▸ hprod)
  exact ⟨answers_invert_of_product_one hs (hbyte.trans_lt hlt) hvlt hone, hone⟩

/-! ### What the field commands accept and answer (R19) -/

section

variable {i : Instr}

theorem answers_unique {w : Byte} (hv : Answers i s v) (hw : Answers i s w) : v = w := by
  have h := Host.Outcome.next.inj (hv.symm.trans hw)
  exact BitVec.eq_of_toNat_eq (answered_inj (by decide) (by decide) v.isLt w.isLt h).2

theorem not_answers_of_fails {code : Nat} (hpos : 0 < code) (hcode : code < 256) (h : Fails i s code) :
    ¬ Answers i s v := by
  intro hv
  have heq := Host.Outcome.next.inj (hv.symm.trans h)
  exact absurd (answered_inj (by decide) hcode v.isLt (by decide) heq).1 hpos.ne

/-- A command that fails unless `P` holds, and answers an element if it does, answers elements only. -/
theorem element_of_answers {P : Prop} (hfails : ¬ P → ∃ code, 0 < code ∧ code < 256 ∧ Fails i s code)
    (hanswers : P → ∃ w, Answers i s w ∧ Element s w) (h : Answers i s v) : P ∧ Element s v := by
  by_cases hP : P
  · obtain ⟨w, hw, helement⟩ := hanswers hP
    exact ⟨hP, answers_unique h hw ▸ helement⟩
  · obtain ⟨code, hpos, hcode, hfail⟩ := hfails hP
    exact absurd h (not_answers_of_fails hpos hcode hfail)

end

theorem fails_validate_outside (hc : s.cfgv = true) (ha : ¬ Element s a) : Fails (.validate a) s 2 :=
  (validateAnswersItsOperand s a).2.2.2 hc ha

theorem answers_validate (hc : s.cfgv = true) (ha : Element s a) : Answers (.validate a) s a :=
  (validateAnswersItsOperand s a).2.2.1 hc ha

theorem element_of_answers_validate (hc : s.cfgv = true) (h : Answers (.validate a) s v) : Element s a ∧ Element s v :=
  element_of_answers (fun ha => ⟨2, by decide, by decide, fails_validate_outside hc ha⟩)
    (fun ha => ⟨a, answers_validate hc ha, ha⟩) h

theorem element_of_answers_invert (hs : Configured s) (h : Answers (.invert a) s v) : Element s a ∧ Element s v := by
  refine element_of_answers (P := Element s a) (fun ha => ⟨2, by decide, by decide, fails_invert_outside hs ha⟩)
    (fun ha => ?_) h
  have ha0 : a.toNat ≠ 0 := fun h0 => not_answers_of_fails (by decide) (by decide) (fails_invert_zero hs.1 h0) h
  obtain ⟨w, hw, -, hfinv, -⟩ := exists_inverse hs ha ha0
  exact ⟨w, answers_invert hs.1 hfinv, hw⟩

theorem element_of_answers_add (hs : Configured s) (h : Answers (.add a b) s v) :
    (Element s a ∧ Element s b) ∧ Element s v :=
  element_of_answers (fun hab => ⟨2, by decide, by decide, fails_add_outside hs.1 hab⟩)
    (fun ⟨ha, hb⟩ => ⟨_, answers_add hs ha hb, element_xor hs ha hb⟩) h

theorem element_of_answers_mul (hs : Configured s) (h : Answers (.mul a b) s v) :
    (Element s a ∧ Element s b) ∧ Element s v := by
  refine element_of_answers (fun hab => ⟨2, by decide, by decide, fails_mul_outside hs.1 hab⟩) (fun ⟨ha, hb⟩ => ?_) h
  obtain ⟨p, hp, hmul, -⟩ := exists_product hs ha hb
  exact ⟨p, hmul, hp⟩

theorem element_of_answers_div (hs : Configured s) (h : Answers (.div a b) s v) :
    (Element s a ∧ Element s b) ∧ Element s v := by
  have hb0 : b.toNat ≠ 0 := fun h0 => not_answers_of_fails (by decide) (by decide) (fails_div_zero hs.1 h0) h
  refine element_of_answers (fun hab => ⟨2, by decide, by decide, fails_div_outside hs hb0 hab⟩) (fun ⟨ha, hb⟩ => ?_) h
  obtain ⟨w, hw, -, hfinv, -⟩ := exists_inverse hs hb hb0
  obtain ⟨q, hq, hmul, -⟩ := exists_product hs ha hw
  exact ⟨q, (exec_div_eq_exec_mul hs.1 a hfinv).trans hmul, hq⟩

/-- TOMATRIX answers `OK` for elements only: its errors are not the word 0. -/
theorem element_of_toMatrix_ok {t : State} (hs : Configured s) (h : exec (.toMatrix a) s = .next t)
    (hr : Responds s t 0) : Element s a := by
  by_contra ha
  cases h.symm.trans (fails_toMatrix_outside hs ha)
  exact absurd (List.singleton_injective (List.append_cancel_left hr)) (by decide)

/-- An answer of a field command shows that the field has been constructed (R75). -/
theorem cfgv_of_answers {i : Instr} (hi : i ∈ fieldCommands a b) (h : Answers i s v) : s.cfgv = true := by
  by_contra hc
  exact not_answers_of_fails (by decide) (by decide) (fails_fieldCommands (by simpa using hc) a b i hi) h

/-- Settles O38: by `cfgv_of_answers` the field is configured, and there each command answers elements for elements
only. -/
theorem resultsLieInTheField : Obligations.ResultsLieInTheField := by
  intro s a b v hok
  have hconfigured {i : Instr} (hi : i ∈ fieldCommands a b) (h : Answers i s v) : Configured s :=
    ⟨cfgv_of_answers hi h, hok⟩
  refine ⟨fun h => ?_, fun h => ?_, fun t hexec hr => ?_⟩
  · rcases h with h | h | h
    · exact element_of_answers_validate (hconfigured (by simp [fieldCommands]) h).1 h
    · exact element_of_answers_validate (hconfigured (by simp [fieldCommands]) h).1
        ((exec_neg_eq_exec_validate a s).symm.trans h)
    · exact element_of_answers_invert (hconfigured (by simp [fieldCommands]) h) h
  · have hpair : (Element s a ∧ Element s b) ∧ Element s v := by
      rcases h with h | h | h | h
      · exact element_of_answers_add (hconfigured (by simp [fieldCommands]) h) h
      · exact element_of_answers_add (hconfigured (by simp [fieldCommands]) h)
          ((exec_sub_eq_exec_add a b s).symm.trans h)
      · exact element_of_answers_mul (hconfigured (by simp [fieldCommands]) h) h
      · exact element_of_answers_div (hconfigured (by simp [fieldCommands]) h) h
    exact ⟨hpair.1.1, hpair.1.2, hpair.2⟩
  · have hc : s.cfgv = true := by
      by_contra hc
      cases hexec.symm.trans (exec_toMatrix_of_not_cfgv (by simpa using hc) a)
      exact absurd (List.singleton_injective (List.append_cancel_left hr)) (by decide)
    exact element_of_toMatrix_ok ⟨hc, hok⟩ hexec hr

end Sys2Proof.Machine
end

section
/-! SUPPORT. The matrix of an element (R110, R111): its entries are the bits of the products with the basis values, that
is, coefficients of remainders, so what holds of products of polynomials holds of the matrices. -/

namespace Sys2Proof.Machine

open Polynomial

variable {s t : State} {a b p : Byte} {r c x : Nat}

/-! ### What TOMATRIX leaves in the buffer -/

/-- The buffer of `t` holds the matrix of `a` in the field of `s` (R110). -/
structure HoldsMatrixOf (s : State) (a : Byte) (t : State) : Prop where
  matv : t.matv = true
  mrows : t.mrows = s.exp
  mcols : t.mcols = s.exp
  entry : ∀ r < s.exp.toNat, ∀ c < s.exp.toNat, ∀ p : Byte, Answers (.mul a (BitVec.ofNat 8 (2 ^ c))) s p →
    matrixEntry t r c = BitVec.ofNat 8 (p.toNat / 2 ^ r % 2)

theorem exists_toMatrix (hs : Configured s) (ha : Element s a) :
    ∃ t, exec (.toMatrix a) s = .next t ∧ HoldsMatrixOf s a t := by
  obtain ⟨-, -, -, hbuilds⟩ := toMatrixBuildsTheMatrix s a
  obtain ⟨m, hexec, hbytes⟩ := hbuilds hs ha
  refine ⟨_, hexec, rfl, rfl, rfl, fun r hr c hc p hmul => ?_⟩
  obtain ⟨q, hq, hread⟩ := hbytes r c hr hc
  rw [answers_mul_unique hs.1 hmul hq]
  exact congrArg (Option.getD · _) hread

theorem toNat_bit (x : Nat) : (BitVec.ofNat 8 (x % 2)).toNat = x % 2 := by
  rw [BitVec.toNat_ofNat]
  omega

/-- The product with a basis value, and the column of the matrix that spells it. -/
theorem exists_column (hs : Configured s) (ha : Element s a) (ht : HoldsMatrixOf s a t) (hc : c < s.exp.toNat) :
    ∃ p, Element s p ∧ Answers (.mul a (BitVec.ofNat 8 (2 ^ c))) s p ∧
      ∀ r < s.exp.toNat, (matrixEntry t r c).toNat = p.toNat / 2 ^ r % 2 := by
  obtain ⟨p, hp, hmul, -⟩ := exists_product hs ha (element_two_pow hs hc).2
  exact ⟨p, hp, hmul, fun r hr => ht.entry r hr c hc p hmul ▸ toNat_bit _⟩

/-- Settles O35: MGET reads the entry that TOMATRIX built. -/
theorem mgetReadsWhatToMatrixBuilt : Obligations.MgetReadsWhatToMatrixBuilt := by
  intro s a hs ha
  obtain ⟨t, hexec, ht⟩ := exists_toMatrix hs ha
  refine ⟨t, hexec, fun r c hr hc => ?_⟩
  obtain ⟨p, -, hmul, -⟩ := exists_product hs ha (element_two_pow hs hc).2
  refine ⟨p, hmul, ?_⟩
  rw [← ht.entry _ hr _ hc p hmul]
  exact answers_mget ht.matv (ht.mrows ▸ hr) (ht.mcols ▸ hc)

/-! ### The columns spell products (R111 (1), (2), (5)) -/

/-- The elements of a configured field are the numbers of `EXP` bits. -/
theorem element_iff_lt_two_pow (hs : Configured s) : Element s a ↔ a.toNat < 2 ^ s.exp.toNat := by
  rw [Element, ← field_order, (field_proper hs).order_eq, field_exp]

/-- A number is the sum of its bits by their weights. -/
theorem sum_bits (x n : Nat) : ∑ r ∈ Finset.range n, x / 2 ^ r % 2 * 2 ^ r = x % 2 ^ n := by
  induction n with
  | zero => simp [Nat.mod_one]
  | succ n ih => rw [Finset.sum_range_succ, ih, Nat.mod_pow_succ, Nat.mul_comm (2 ^ n)]

/-- Column c read as a number is the product with `2^c` (R111 (1)). -/
theorem sum_column (hs : Configured s) (ha : Element s a) (ht : HoldsMatrixOf s a t) (hc : c < s.exp.toNat) :
    ∃ p, Answers (.mul a (BitVec.ofNat 8 (2 ^ c))) s p ∧
      ∑ r ∈ Finset.range s.exp.toNat, (matrixEntry t r c).toNat * 2 ^ r = p.toNat := by
  obtain ⟨p, hp, hmul, hbits⟩ := exists_column hs ha ht hc
  refine ⟨p, hmul, ?_⟩
  rw [← Nat.mod_eq_of_lt ((element_iff_lt_two_pow hs).mp hp), ← sum_bits]
  exact Finset.sum_congr rfl fun r hr => by rw [hbits r (Finset.mem_range.mp hr)]

/-- Column 0 is the element itself (R111 (2)). -/
theorem sum_column_zero (hs : Configured s) (ha : Element s a) (ht : HoldsMatrixOf s a t) :
    ∑ r ∈ Finset.range s.exp.toNat, (matrixEntry t r 0).toNat * 2 ^ r = a.toNat := by
  obtain ⟨h1, -, -, -⟩ := hs.2 hs.1
  obtain ⟨p, hmul, hsum⟩ := sum_column hs ha ht (c := 0) h1
  rw [hsum, answers_mul_unique hs.1 hmul (answers_mul_one hs ha)]

/-- Settles O32: the sums of the columns, and column 0 determines the element. -/
theorem matrixColumnsSpellTheProducts : Obligations.MatrixColumnsSpellTheProducts := by
  intro s a b hs ha hb
  obtain ⟨h1, -, -, -⟩ := hs.2 hs.1
  obtain ⟨ta, hexeca, hta⟩ := exists_toMatrix hs ha
  obtain ⟨tb, hexecb, htb⟩ := exists_toMatrix hs hb
  refine ⟨ta, tb, hexeca, hexecb, fun c hc => sum_column hs ha hta hc, sum_column_zero hs ha hta, fun heq => ?_⟩
  apply BitVec.eq_of_toNat_eq
  rw [← sum_column_zero hs ha hta, ← sum_column_zero hs hb htb]
  exact Finset.sum_congr rfl fun r hr => by rw [heq r (Finset.mem_range.mp hr) 0 h1]

/-! ### The matrix times a vector (R111 (3)) -/

/-- A bit, as an element of GF(2), is a coefficient. -/
theorem natCast_bit (x r : Nat) : ((x / 2 ^ r % 2 : ℕ) : ZMod 2) = (bitPoly x).coeff r := by
  rw [coeff_bitPoly, Nat.testBit_eq_decide_div_mod_eq]
  rcases Nat.mod_two_eq_zero_or_one (x / 2 ^ r) with h | h <;> simp [h]

/-- Entry (r, c) is coefficient r of the remainder of the element's polynomial times `X ^ c`. -/
theorem natCast_entry (hs : Configured s) (ha : Element s a) (ht : HoldsMatrixOf s a t) (hr : r < s.exp.toNat)
    (hc : c < s.exp.toNat) :
    ((matrixEntry t r c).toNat : ZMod 2) = (bitPoly a.toNat * X ^ c %ₘ bitPoly s.field.divisor).coeff r := by
  obtain ⟨hbyte, hbasis⟩ := element_two_pow hs hc
  obtain ⟨p, hp, hmul, hbits⟩ := exists_column hs ha ht hc
  have hpow : bitPoly (2 ^ c) = X ^ c := by rw [← Nat.one_shiftLeft, bitPoly_shiftLeft, bitPoly_one, one_mul]
  rw [hbits r hr, natCast_bit, bitPoly_product hs ha hbasis hp hmul, hbyte, hpow]

/-- The product with a sum of basis values is the sum of the products, remainders included. -/
theorem mul_modByMonic_eq_sum (A D : (ZMod 2)[X]) {n : Nat} (hx : x < 2 ^ n) :
    A * bitPoly x %ₘ D = ∑ c ∈ Finset.range n, if x.testBit c then A * X ^ c %ₘ D else 0 := by
  rw [← bitSum_eq_bitPoly hx, Finset.mul_sum]
  refine (map_sum (modByMonicHom D) _ _).trans (Finset.sum_congr rfl fun c _ => ?_)
  split
  · rfl
  · rw [mul_zero, map_zero]

/-- Bit r of a product is row r of the matrix times the bits of the other factor, over GF(2) (R111 (3)). -/
theorem product_bit_eq_sum (hs : Configured s) (ha : Element s a) (hb : Element s b) (hp : Element s p)
    (ht : HoldsMatrixOf s a t) (hmul : Answers (.mul a b) s p) (hr : r < s.exp.toNat) :
    p.toNat / 2 ^ r % 2 =
      (∑ c ∈ Finset.range s.exp.toNat, (matrixEntry t r c).toNat * (b.toNat / 2 ^ c % 2)) % 2 := by
  have hcast : ((p.toNat / 2 ^ r % 2 : ℕ) : ZMod 2) =
      (∑ c ∈ Finset.range s.exp.toNat, (matrixEntry t r c).toNat * (b.toNat / 2 ^ c % 2) : ℕ) := by
    rw [natCast_bit, bitPoly_product hs ha hb hp hmul,
      mul_modByMonic_eq_sum _ _ ((element_iff_lt_two_pow hs).mp hb), finsetSum_coeff, Nat.cast_sum]
    refine Finset.sum_congr rfl fun c hc => ?_
    rw [Nat.cast_mul, natCast_entry hs ha ht hr (Finset.mem_range.mp hc), natCast_bit, coeff_bitPoly]
    split <;> simp
  have hmod := (ZMod.natCast_eq_natCast_iff' _ _ 2).mp hcast
  rwa [Nat.mod_mod] at hmod

/-- Settles O33 by `product_bit_eq_sum`. -/
theorem matrixTimesVectorIsTheProduct : Obligations.MatrixTimesVectorIsTheProduct := by
  intro s a b hs ha hb
  obtain ⟨t, hexec, ht⟩ := exists_toMatrix hs ha
  obtain ⟨p, hp, hmul, -⟩ := exists_product hs ha hb
  exact ⟨t, p, hexec, hmul, fun r hr => product_bit_eq_sum hs ha hb hp ht hmul hr⟩

/-! ### Sums and products of matrices (R111 (4)) -/

/-- A bit of an exclusive-or is the exclusive-or of the bits. -/
theorem ofNat_bit_xor (x y r : Nat) :
    BitVec.ofNat 8 ((x ^^^ y) / 2 ^ r % 2) = BitVec.ofNat 8 (x / 2 ^ r % 2) ^^^ BitVec.ofNat 8 (y / 2 ^ r % 2) := by
  rw [← BitVec.ofNat_xor, ← Nat.shiftRight_eq_div_pow, ← Nat.shiftRight_eq_div_pow, ← Nat.shiftRight_eq_div_pow,
    Nat.shiftRight_xor_distrib]
  exact congrArg _ (Nat.xor_mod_two_pow (n := 1))

theorem matrixEntry_xor {ta tb : State} (hs : Configured s) (ha : Element s a) (hb : Element s b)
    (ht : HoldsMatrixOf s (a ^^^ b) t) (hta : HoldsMatrixOf s a ta) (htb : HoldsMatrixOf s b tb)
    (hr : r < s.exp.toNat) (hc : c < s.exp.toNat) :
    matrixEntry t r c = matrixEntry ta r c ^^^ matrixEntry tb r c := by
  have hbasis := (element_two_pow hs hc).2
  obtain ⟨p, hp, hmula, -⟩ := exists_product hs ha hbasis
  obtain ⟨q, hq, hmulb, -⟩ := exists_product hs hb hbasis
  have hsum := answers_mul_xor hs hbasis ha hb hp hq (answers_mul_comm hs ha hbasis hp hmula)
    (answers_mul_comm hs hb hbasis hq hmulb)
  have hmul := answers_mul_comm hs hbasis (element_xor hs ha hb) (element_xor hs hp hq) hsum
  rw [ht.entry r hr c hc _ hmul, hta.entry r hr c hc p hmula,
    htb.entry r hr c hc q hmulb, BitVec.toNat_xor, ofNat_bit_xor]

/-- Column c of the matrix of a product is the matrix of the first factor times column c of that of the second. -/
theorem matrixEntry_product {ta tb : State} (hs : Configured s) (ha : Element s a) (hb : Element s b)
    (hp : Element s p) (hmul : Answers (.mul a b) s p) (ht : HoldsMatrixOf s p t) (hta : HoldsMatrixOf s a ta)
    (htb : HoldsMatrixOf s b tb) (hr : r < s.exp.toNat) (hc : c < s.exp.toNat) :
    (matrixEntry t r c).toNat =
      (∑ k ∈ Finset.range s.exp.toNat, (matrixEntry ta r k).toNat * (matrixEntry tb k c).toNat) % 2 := by
  have hbasis := (element_two_pow hs hc).2
  obtain ⟨u, hu, hpd, hbitsu⟩ := exists_column hs hp ht hc
  obtain ⟨w, hw, hbd, hbitsw⟩ := exists_column hs hb htb hc
  have haw := answers_mul_assoc hs ha hb hbasis hp hw hu hmul hbd hpd
  rw [hbitsu r hr, product_bit_eq_sum hs ha hw hu hta haw hr]
  refine congrArg (· % 2) (Finset.sum_congr rfl fun k hk => ?_)
  rw [hbitsw k (Finset.mem_range.mp hk)]

/-- Settles O34 by `matrixEntry_xor` and `matrixEntry_product`. -/
theorem matrixOfSumsAndProducts : Obligations.MatrixOfSumsAndProducts := by
  intro s a b hs ha hb
  obtain ⟨p, hp, hmul, -⟩ := exists_product hs ha hb
  obtain ⟨ta, hexeca, hta⟩ := exists_toMatrix hs ha
  obtain ⟨tb, hexecb, htb⟩ := exists_toMatrix hs hb
  obtain ⟨tsum, hexecsum, htsum⟩ := exists_toMatrix hs (element_xor hs ha hb)
  obtain ⟨tprod, hexecprod, htprod⟩ := exists_toMatrix hs hp
  exact ⟨ta, tb, tsum, tprod, p, hexeca, hexecb, hexecsum, hmul, hexecprod, fun r hr c hc =>
    ⟨matrixEntry_xor hs ha hb htsum hta htb hr hc, matrixEntry_product hs ha hb hp hmul htprod hta htb hr hc⟩⟩

end Sys2Proof.Machine
end
